-- ==== Sys2Proof/Word.lean ====
section
/-! DEFINITION. The fixed widths of the machine (00_scope.md R1): 16-bit words, 13-bit word addresses, eight registers. -/

namespace Sys2Proof

/-- A register value, a memory word, an instruction word (R1). -/
abbrev Word := BitVec 16

/-- A word address; also the width of `pc` (R1, 10_state.md R14). -/
abbrev Addr := BitVec 13

/-- A general register number `0` to `7` (10_state.md R11). -/
abbrev Reg := Fin 8

end Sys2Proof
end

