-- ==== Sys2Proof/Config.lean ====
section
/-! DEFINITION. What is fixed for one machine: the cache configuration the host supplies and the three
parameters the spec leaves to a model (00_scope.md R2 to R8), with the host-side errors that can refuse them.
No free value stands here: every value of this machine is defined (93_implementation_defined.md section 1). -/

namespace Sys2Proof

/-- The function codes of opcode 000, the parameter `FUNC` (00_scope.md R8, 30_encoding.md R56). -/
structure FuncCodes where
  add : BitVec 4
  sub : BitVec 4
  or  : BitVec 4
  and : BitVec 4
  slt : BitVec 4
  jr  : BitVec 4
deriving DecidableEq, Repr

/-- The parameters of 00_scope.md R8, carried so that a claim can name them or hold for every value. -/
structure Params where
  /-- `FUNC` (30_encoding.md R56). -/
  func : FuncCodes
  /-- Whether a store runs the line-store algorithm at each level (41_cache_hierarchy.md R94). -/
  storeUpdatesCacheState : Bool
  /-- Whether the link value of `jal` is reduced to 13 bits (45_control_transfer.md R136). -/
  linkWraps13 : Bool
deriving DecidableEq, Repr

/-- The three host-supplied naturals of one cache level (00_scope.md R2, R3, R5). -/
structure LevelConfig where
  /-- In memory words. -/
  size : Nat
  /-- 0 fully-associative (one line), 1 direct-mapped, N > 1 N-way set-associative. -/
  associativity : Nat
  /-- In memory words. -/
  blockSize : Nat
deriving DecidableEq, Repr

/-- One thing per configured cache level: `nLevels` is 0, 1 or 2 and no other number (00_scope.md R2,
41_cache_hierarchy.md R90). -/
inductive Levels (α : Type) where
  | zero
  | one (l1 : α)
  | two (l1 l2 : α)
deriving DecidableEq, Repr

/-- The two level names (00_scope.md R2). -/
inductive LevelName where
  | L1
  | L2
deriving DecidableEq, Repr

/-- `nLevels` (00_scope.md R2). -/
def Levels.count {α : Type} : Levels α → Nat
  | .zero => 0
  | .one _ => 1
  | .two _ _ => 2

/-- The configured levels with their names, `L1` first. -/
def Levels.named {α : Type} : Levels α → List (LevelName × α)
  | .zero => []
  | .one a => [(.L1, a)]
  | .two a b => [(.L1, a), (.L2, b)]

/-- The configured levels, `L1` first. -/
def Levels.toList {α : Type} (c : Levels α) : List α := c.named.map Prod.snd

/-- The level of a name, where it is configured. -/
def Levels.at {α : Type} : Levels α → LevelName → Option α
  | .one a, .L1 => some a
  | .two a _, .L1 => some a
  | .two _ b, .L2 => some b
  | .zero, .L1 => none
  | .zero, .L2 => none
  | .one _, .L2 => none

/-- The same levels with each one mapped. -/
def Levels.map {α β : Type} (f : α → β) : Levels α → Levels β
  | .zero => .zero
  | .one a => .one (f a)
  | .two a b => .two (f a) (f b)

/-- One record of the configuration report (80_interfaces.md R186). -/
structure ConfigReport where
  name : LevelName
  size : Nat
  associativity : Nat
  blocksize : Nat
  numLines : Nat
deriving DecidableEq, Repr

/-- Why the host's configuration is refused before reset (60_exceptions.md R152). -/
inductive ConfigError where
  /-- The list holds this many integers, which is none of 0, 3, 6 (00_scope.md R2). -/
  | wrongCount (n : Nat)
  /-- The level's three integers are no legal configuration (00_scope.md R6). -/
  | illegalLevel (level : LevelName)
deriving DecidableEq, Repr

/-- Why the host's memory image is refused before the run (60_exceptions.md R151). -/
inductive LoadError where
  /-- An address of 8192 or more. -/
  | addressOverflow (a : Nat)
  /-- An address not above the one before it. -/
  | outOfSequence (a : Nat)
deriving DecidableEq, Repr

/-- A run does not exist (60_exceptions.md R150): one of the two host-side errors. -/
inductive BootError where
  | config (e : ConfigError)
  | load (e : LoadError)
deriving DecidableEq, Repr

end Sys2Proof
end

