-- ==== Sys2Proof/Syntax.lean ====
section
/-! DEFINITION. The instructions: one constructor per row of the opcode table, holding what the decoder's record
holds (30_encoding.md R57): register numbers, the sign-extended 16-bit immediate, the 13-bit absolute immediate. -/

namespace Sys2Proof

/-- A decoded instruction. Operands stand in the order of 30_encoding.md R57. -/
inductive Instr where
  | add (rD rA rB : Reg)
  | sub (rD rA rB : Reg)
  | or (rD rA rB : Reg)
  | and (rD rA rB : Reg)
  | slt (rD rA rB : Reg)
  | jr (rA : Reg)
  | addi (rB rA : Reg) (imm : Word)
  | j (imm13 : Addr)
  | jal (imm13 : Addr)
  | lw (rB rA : Reg) (imm : Word)
  | sw (rB rA : Reg) (imm : Word)
  | jeq (rA rB : Reg) (imm : Word)
  | slti (rB rA : Reg) (imm : Word)
deriving DecidableEq, Repr

/-- What the decoder answers for a word: one of the 13 instructions, or `ILLEGAL` with the word (30_encoding.md
R57, R58). -/
inductive Decoded where
  | legal (i : Instr)
  | illegal (w : Word)
deriving DecidableEq, Repr

/-- The mnemonic, as the opcode table spells it. -/
def Instr.mnemonic : Instr → String
  | .add _ _ _ => "add"
  | .sub _ _ _ => "sub"
  | .or _ _ _ => "or"
  | .and _ _ _ => "and"
  | .slt _ _ _ => "slt"
  | .jr _ => "jr"
  | .addi _ _ _ => "addi"
  | .j _ => "j"
  | .jal _ => "jal"
  | .lw _ _ _ => "lw"
  | .sw _ _ _ => "sw"
  | .jeq _ _ _ => "jeq"
  | .slti _ _ _ => "slti"

/-- The register field an instruction names as its destination, or `x[7]` for `jal` (30_encoding.md R52). -/
def Instr.dest : Instr → Option Reg
  | .add rD _ _ => some rD
  | .sub rD _ _ => some rD
  | .or rD _ _ => some rD
  | .and rD _ _ => some rD
  | .slt rD _ _ => some rD
  | .jr _ => none
  | .addi rB _ _ => some rB
  | .j _ => none
  | .jal _ => some 7
  | .lw rB _ _ => some rB
  | .sw _ _ _ => none
  | .jeq _ _ _ => none
  | .slti rB _ _ => some rB

/-- The four instructions that set `pc` to something other than `pc + 1` (45_control_transfer.md). -/
def Instr.isTransfer : Instr → Bool
  | .add _ _ _ => false
  | .sub _ _ _ => false
  | .or _ _ _ => false
  | .and _ _ _ => false
  | .slt _ _ _ => false
  | .jr _ => true
  | .addi _ _ _ => false
  | .j _ => true
  | .jal _ => true
  | .lw _ _ _ => false
  | .sw _ _ _ => false
  | .jeq _ _ _ => true
  | .slti _ _ _ => false

/-- `lw` (44_load_store.md R120). -/
def Instr.isLoad : Instr → Bool
  | .add _ _ _ => false
  | .sub _ _ _ => false
  | .or _ _ _ => false
  | .and _ _ _ => false
  | .slt _ _ _ => false
  | .jr _ => false
  | .addi _ _ _ => false
  | .j _ => false
  | .jal _ => false
  | .lw _ _ _ => true
  | .sw _ _ _ => false
  | .jeq _ _ _ => false
  | .slti _ _ _ => false

/-- `sw` (44_load_store.md R121). -/
def Instr.isStore : Instr → Bool
  | .add _ _ _ => false
  | .sub _ _ _ => false
  | .or _ _ _ => false
  | .and _ _ _ => false
  | .slt _ _ _ => false
  | .jr _ => false
  | .addi _ _ _ => false
  | .j _ => false
  | .jal _ => false
  | .lw _ _ _ => false
  | .sw _ _ _ => true
  | .jeq _ _ _ => false
  | .slti _ _ _ => false

end Sys2Proof
end

