-- ==== Sys2Proof/WellFormed.lean ====
section
/-! DEFINITION. Which instruction terms have an encoding: register numbers and the 13-bit immediate are in range by
their types, so the one check left is that a 16-bit immediate is the sign extension of a 7-bit field (30_encoding.md
R53: 0 to 63 and 0xFFC0 to 0xFFFF). -/

namespace Sys2Proof

/-- The values `sext_16` reaches (30_encoding.md R53). -/
def immReachable (imm : Word) : Bool := decide (imm.toNat < 64 ∨ 65472 ≤ imm.toNat)

/-- The instruction is one that some word encodes. -/
def Instr.wf : Instr → Bool
  | .add _ _ _ => true
  | .sub _ _ _ => true
  | .or _ _ _ => true
  | .and _ _ _ => true
  | .slt _ _ _ => true
  | .jr _ => true
  | .addi _ _ imm => immReachable imm
  | .j _ => true
  | .jal _ => true
  | .lw _ _ imm => immReachable imm
  | .sw _ _ imm => immReachable imm
  | .jeq _ _ imm => immReachable imm
  | .slti _ _ imm => immReachable imm

/-- The six function codes name six different words (needed for the decoder to tell them apart). -/
def FuncCodes.distinct (f : FuncCodes) : Bool :=
  decide ([f.add, f.sub, f.or, f.and, f.slt, f.jr].Pairwise (· ≠ ·))

end Sys2Proof
end

