-- ==== Sys2Proof/Decode.lean ====
section
/-! DEFINITION. The instruction decoder block and its inverse (30_encoding.md R50 to R60, 80_interfaces.md R193):
field slicing, sign extension, the opcode map, the encoder, and the table of bit patterns of section 6. -/

namespace Sys2Proof

/-- The decided function codes (30_encoding.md R56, 92_eei_decisions.md D3). UNVERIFIED, log 2. -/
def decidedFunc : FuncCodes :=
  { add := 0b0000#4, sub := 0b0001#4, or := 0b0010#4, and := 0b0011#4, slt := 0b0100#4, jr := 0b1000#4 }

/-- `sext_16` of a 7-bit field (30_encoding.md R53): the field with `0xFFC0` ORed in when bit 6 is set. -/
def sext16 (v : BitVec 7) : Word :=
  if v.getLsbD 6 then v.setWidth 16 ||| 0xFFC0#16 else v.setWidth 16

/-- The decoder block's combinational outputs that do not depend on the opcode (80_interfaces.md R193). -/
structure Fields where
  op    : BitVec 3
  rA    : Reg
  rB    : Reg
  rD    : Reg
  func  : BitVec 4
  imm   : Word
  imm13 : Addr
deriving DecidableEq, Repr

/-- The register number in the three bits of `w` from bit `lo` up. -/
def regField (w : Word) (lo : Nat) : Reg := (w.extractLsb' lo 3).toFin

/-- The bit positions of every field (30_encoding.md R51, R57). -/
def fieldsOf (w : Word) : Fields :=
  { op    := w.extractLsb' 13 3
    rA    := regField w 10
    rB    := regField w 7
    rD    := regField w 4
    func  := w.extractLsb' 0 4
    imm   := sext16 (w.extractLsb' 0 7)
    imm13 := w.extractLsb' 0 13 }

/-- Opcode 000 (30_encoding.md R56, R58): the function code selects the instruction, or none. -/
def decodeR (f : FuncCodes) (w : Word) (d : Fields) : Decoded :=
  if d.func = f.add then .legal (.add d.rD d.rA d.rB)
  else if d.func = f.sub then .legal (.sub d.rD d.rA d.rB)
  else if d.func = f.or then .legal (.or d.rD d.rA d.rB)
  else if d.func = f.and then .legal (.and d.rD d.rA d.rB)
  else if d.func = f.slt then .legal (.slt d.rD d.rA d.rB)
  else if d.func = f.jr then .legal (.jr d.rA)
  else .illegal w

/-- `Decode(w)` (30_encoding.md R55, R57). The last branch is opcode 111, the one value left. -/
def decode (f : FuncCodes) (w : Word) : Decoded :=
  let d := fieldsOf w
  if d.op = 0b000#3 then decodeR f w d
  else if d.op = 0b001#3 then .legal (.addi d.rB d.rA d.imm)
  else if d.op = 0b010#3 then .legal (.j d.imm13)
  else if d.op = 0b011#3 then .legal (.jal d.imm13)
  else if d.op = 0b100#3 then .legal (.lw d.rB d.rA d.imm)
  else if d.op = 0b101#3 then .legal (.sw d.rB d.rA d.imm)
  else if d.op = 0b110#3 then .legal (.jeq d.rA d.rB d.imm)
  else .legal (.slti d.rB d.rA d.imm)

/-- The instruction a decoder answer holds, if any. -/
def Decoded.toOption : Decoded → Option Instr
  | .legal i => some i
  | .illegal _ => none

/-- Format R (30_encoding.md R51): opcode 000, `rA` at bit 10, `rB` at bit 7, `rD` at bit 4, `func` at bit 0. -/
def packR (rA rB rD : Reg) (func : BitVec 4) : Word :=
  BitVec.ofNat 16 (rA.val * 1024 + rB.val * 128 + rD.val * 16 + func.toNat)

/-- Format I (30_encoding.md R51): opcode at bit 13, `rA` at bit 10, `rB` at bit 7, the low seven bits of the
immediate at bit 0. -/
def packI (op : Nat) (rA rB : Reg) (imm : Word) : Word :=
  BitVec.ofNat 16 (op * 8192 + rA.val * 1024 + rB.val * 128 + imm.toNat % 128)

/-- Format J (30_encoding.md R51): opcode at bit 13, `imm13` at bit 0. -/
def packJ (op : Nat) (imm13 : Addr) : Word := BitVec.ofNat 16 (op * 8192 + imm13.toNat)

/-- The word of an instruction (30_encoding.md R55, R56, R61). `jr` takes its canonical form, with bits 9:4 zero
(R59). -/
def encode (f : FuncCodes) : Instr → Word
  | .add rD rA rB => packR rA rB rD f.add
  | .sub rD rA rB => packR rA rB rD f.sub
  | .or rD rA rB => packR rA rB rD f.or
  | .and rD rA rB => packR rA rB rD f.and
  | .slt rD rA rB => packR rA rB rD f.slt
  | .jr rA => packR rA 0 0 f.jr
  | .addi rB rA imm => packI 0b001 rA rB imm
  | .j imm13 => packJ 0b010 imm13
  | .jal imm13 => packJ 0b011 imm13
  | .lw rB rA imm => packI 0b100 rA rB imm
  | .sw rB rA imm => packI 0b101 rA rB imm
  | .jeq rA rB imm => packI 0b110 rA rB imm
  | .slti rB rA imm => packI 0b111 rA rB imm

/-- One row of the pattern table (30_encoding.md section 6). -/
structure PatternRow where
  mnemonic : String
  pattern  : Word
  mask     : Word
deriving DecidableEq, Repr

/-- The table of bit patterns as 30_encoding.md section 6 prints it, in its order. -/
def patternTable : List PatternRow :=
  [ ⟨"add", 0x0000#16, 0xE00F#16⟩, ⟨"sub", 0x0001#16, 0xE00F#16⟩, ⟨"or", 0x0002#16, 0xE00F#16⟩,
    ⟨"and", 0x0003#16, 0xE00F#16⟩, ⟨"slt", 0x0004#16, 0xE00F#16⟩, ⟨"jr", 0x0008#16, 0xE00F#16⟩,
    ⟨"addi", 0x2000#16, 0xE000#16⟩, ⟨"j", 0x4000#16, 0xE000#16⟩, ⟨"jal", 0x6000#16, 0xE000#16⟩,
    ⟨"lw", 0x8000#16, 0xE000#16⟩, ⟨"sw", 0xA000#16, 0xE000#16⟩, ⟨"jeq", 0xC000#16, 0xE000#16⟩,
    ⟨"slti", 0xE000#16, 0xE000#16⟩ ]

/-- "A word `w` is the instruction of a row when `w AND mask = match`" (30_encoding.md section 6). -/
def PatternRow.matches (r : PatternRow) (w : Word) : Bool := decide (w &&& r.mask = r.pattern)

/-- The word whose low `nbits` bits are those of `w`, with zeros above. -/
def tableWord (nbits w : Nat) : Word := BitVec.ofNat 16 (w % 2 ^ nbits)

/-- The host's question: what the decoder reads from an instruction of `nbits` bits `w`. An instruction is one 16-bit
word (30_encoding.md R50); a longer one is none (log 14). -/
def decodeTableWord (nbits w : Nat) : Option Instr :=
  if nbits ≤ 16 then (decode decidedFunc (tableWord nbits w)).toOption else none

end Sys2Proof
end

