-- ==== Sys2Proof/Machine/Parameters.lean ====
section
/-! DEFINITION. What follows from the configuration alone: the derived line count, the legality of a configuration,
the address decomposition, and the decided values of the open parameters (00_scope.md R4, R6, R8;
40_cache_line_store.md R70). -/

namespace Sys2Proof

/-- `numLines[k]` (00_scope.md R4). For associativity 0 the spec decides 1 (92_eei_decisions.md D7, log 17). -/
def LevelConfig.numLines (c : LevelConfig) : Nat :=
  if c.associativity = 0 then 1
  else if c.associativity = 1 then c.size / c.blockSize
  else c.size / (c.blockSize * c.associativity)

/-- A legal level configuration (00_scope.md R6). -/
def LevelConfig.legal (c : LevelConfig) : Bool :=
  decide (1 ≤ c.size ∧ 1 ≤ c.blockSize ∧ (1 ≤ c.associativity → c.blockSize * c.associativity ∣ c.size))

/-- `blockID = addr div blockSize` (40_cache_line_store.md R70). -/
def LevelConfig.blockID (c : LevelConfig) (a : Addr) : Nat := a.toNat / c.blockSize

/-- `line = blockID mod numLines` (40_cache_line_store.md R70). -/
def LevelConfig.lineOf (c : LevelConfig) (a : Addr) : Nat := c.blockID a % c.numLines

/-- `tag = blockID div numLines` (40_cache_line_store.md R70). -/
def LevelConfig.tagOf (c : LevelConfig) (a : Addr) : Nat := c.blockID a / c.numLines

/-- The line a level's algorithm uses and reports (40_cache_line_store.md R72): line 0 in the fully-associative class
"regardless of the computed line" (R74), the computed line otherwise. -/
def LevelConfig.lineUsed (c : LevelConfig) (a : Addr) : Nat := if c.associativity = 0 then 0 else c.lineOf a

/-- The tag a level's algorithm compares: the block number in the fully-associative class (40_cache_line_store.md
R74), the computed tag otherwise. -/
def LevelConfig.tagUsed (c : LevelConfig) (a : Addr) : Nat :=
  if c.associativity = 0 then c.blockID a else c.tagOf a

/-- The decided values of the three open parameters (00_scope.md R8; logs 2, 3, 4). UNVERIFIED. -/
def decidedParams : Params :=
  { func := decidedFunc, storeUpdatesCacheState := true, linkWraps13 := false }

end Sys2Proof
end

