-- ==== Sys2Proof/Machine/State.lean ====
section
/-! DEFINITION. The state of the machine (10_state.md R10), the reasons a step can stop, and reset (70_reset_and_hazards.md
R165). -/

namespace Sys2Proof.Machine

/-- The memory: pairs of a word address and its 16-bit word, addresses strictly rising, all below 8192, no pair whose
word is what an unlisted address reads as (10_state.md R16). The spec's unit is the word: it has no bytes
(20_memory.md R35, log 5). -/
abbrev Memory := List (Nat × Word)

/-- One cache line: `valid` and the tags, least recently used first (10_state.md R19). It holds no data (R20). -/
structure Line where
  valid : Bool
  tags  : List Nat
deriving DecidableEq, Repr

/-- One Cache Line Store: its constant configuration and its lines `0 .. numLines-1` (10_state.md R17, R19). -/
structure CacheLevel where
  cfg   : LevelConfig
  lines : List Line
deriving DecidableEq, Repr

/-- The outcome of one line-store access (40_cache_line_store.md R72). -/
inductive Verdict where
  | hit
  | miss
deriving DecidableEq, Repr

/-- The status of an Access Event (10_state.md R24). -/
inductive Status where
  | HIT
  | MISS
  | STORE
deriving DecidableEq, Repr

/-- An Access Event (10_state.md R24). -/
structure AccessEvent where
  level   : LevelName
  status  : Status
  pc      : Addr
  address : Addr
  line    : Nat
deriving DecidableEq, Repr

/-- The kind of a cache request (41_cache_hierarchy.md R91). -/
inductive AccessKind where
  | load
  | store
deriving DecidableEq, Repr

/-- One request on the core-to-cache interface (80_interfaces.md R188). -/
structure Request where
  kind : AccessKind
  addr : Addr
  ipc  : Addr
deriving DecidableEq, Repr

/-- The run-state field `fault` (10_state.md R18). -/
inductive FaultStatus where
  | none
  | decodeError
deriving DecidableEq, Repr

/-- The complete state (10_state.md R10), with the constant configuration in `caches` and the open parameters in
`params`. -/
structure State where
  /-- `pc`, the address of the instruction being executed (10_state.md R14). -/
  pc     : Addr
  /-- `x[0..7]` (10_state.md R11). Only `State.x` and `State.setX` touch it. -/
  regs   : Vector Word 8
  /-- `mem[0..8191]` (10_state.md R16). -/
  mem    : Memory
  /-- The configured levels with `valid` and `tags` (10_state.md R17, R19). -/
  caches : Levels CacheLevel
  /-- `halted` (10_state.md R18). -/
  halted : Bool
  /-- `fault` (10_state.md R18). -/
  fault  : FaultStatus
  /-- `trace`, oldest event first (10_state.md R25). -/
  trace  : List AccessEvent
  /-- `FUNC`, `storeUpdatesCacheState`, `linkWraps13` (00_scope.md R8). -/
  params : Params
deriving DecidableEq, Repr

/-- Why `step` answers no next state: the machine is stopped, and there is no step to take (10_state.md R18,
45_control_transfer.md R137). Both are safe: nothing is claimed of a step the spec does not define. -/
inductive Fault where
  /-- Raised by `step` when `halted` is set: a run's normal end (45_control_transfer.md R134). Safe, log 7. -/
  | stoppedHalted
  /-- Raised by `step` when `fault` holds `DecodeError` (60_exceptions.md R146). Safe, log 7. -/
  | stoppedDecodeError
deriving DecidableEq, Repr

/-- Why an instruction is refused. -/
inductive Refusal where
  /-- Raised only by an arm of `exec` whose instruction has no meaning yet; no arm is left so. Safe. -/
  | notModelled (mnemonic : String)
deriving DecidableEq, Repr

/-- A line at reset (10_state.md R23). -/
def Line.blank : Line := { valid := false, tags := [] }

/-- A level at reset: `numLines` blank lines (10_state.md R17, R23). -/
def CacheLevel.fresh (c : LevelConfig) : CacheLevel :=
  { cfg := c, lines := List.replicate c.numLines Line.blank }

/-- Reset for the parameters and the configuration the host supplied (70_reset_and_hazards.md R165, R167). -/
def State.resetWith (p : Params) (cfg : Levels LevelConfig) : State :=
  { pc := 0
    regs := Vector.replicate 8 0
    mem := []
    caches := cfg.map CacheLevel.fresh
    halted := false
    fault := .none
    trace := []
    params := p }

/-- Reset where the host has supplied nothing: no cache (00_scope.md R2, 80_interfaces.md R186) and the decided
parameters (R8). The configuration here is a DESIGN CHOICE, log 1. -/
def State.reset : State := State.resetWith decidedParams .zero

end Sys2Proof.Machine
end

