-- ==== Sys2Proof/Machine/Flags.lean ====
section
/-! DEFINITION. The comparisons. The machine has no flags: "comparisons write 0 or 1 into a general register" or
steer a branch (10_state.md R26); every flag computation of the spec is one of these. -/

namespace Sys2Proof.Machine

/-- The unsigned comparison of `slt` and `slti` (42_alu_register.md R109, 43_alu_immediate.md R116). -/
def lessUnsigned (a b : Word) : Bool := decide (a.toNat < b.toNat)

/-- The comparison of `jeq`, on all 16 bits (45_control_transfer.md R131). -/
def sameWord (a b : Word) : Bool := decide (a = b)

/-- A comparison's register result, "the 16-bit value 0x0001 or 0x0000" (42_alu_register.md R109). -/
def flagWord (c : Bool) : Word := if c then 1#16 else 0#16

end Sys2Proof.Machine
end

