-- ==== Sys2Proof/Machine/LineStore.lean ====
section
/-! DEFINITION. The Cache Line Store (40_cache_line_store.md): the three class algorithms on one line, and
`LineAccess` on one level. -/

namespace Sys2Proof.Machine

/-- The direct-mapped algorithm (40_cache_line_store.md R73), also the fully-associative one on line 0 (R74). -/
def Line.accessSingle (tag : Nat) (l : Line) : Verdict × Line :=
  if l.valid = false then (.miss, { valid := true, tags := [tag] })
  else if l.tags = [tag] then (.hit, l)
  else (.miss, { l with tags := [tag] })

/-- The tags left before a new tag is appended: the least recently used one is evicted when all `n` ways are taken
(40_cache_line_store.md R76). -/
def evict (n : Nat) (tags : List Nat) : List Nat := if tags.length = n then tags.drop 1 else tags

/-- The set-associative algorithm (40_cache_line_store.md R75, R76): membership decides, never a scan order (R77). -/
def Line.accessLru (n tag : Nat) (l : Line) : Verdict × Line :=
  if tag ∈ l.tags then (.hit, { l with tags := l.tags.erase tag ++ [tag] })
  else (.miss, { valid := true, tags := evict n l.tags ++ [tag] })

/-- The line algorithm of a class (40_cache_line_store.md R72). -/
def Line.access (associativity tag : Nat) (l : Line) : Verdict × Line :=
  if associativity ≤ 1 then l.accessSingle tag else l.accessLru associativity tag

/-- Line `i` of a level. A legal level has every line its algorithms name (log 8). -/
def CacheLevel.line (c : CacheLevel) (i : Nat) : Line := c.lines.getD i Line.blank

/-- What `LineAccess` returns: the outcome, the line index used, and the level afterwards. -/
structure LineResult where
  outcome : Verdict
  line    : Nat
  level   : CacheLevel
deriving DecidableEq, Repr

/-- `LineAccess(k, addr)` on level `k` (40_cache_line_store.md R72): only the line used changes. -/
def CacheLevel.access (c : CacheLevel) (a : Addr) : LineResult :=
  let i := c.cfg.lineUsed a
  let r := (c.line i).access c.cfg.associativity (c.cfg.tagUsed a)
  { outcome := r.1, line := i, level := { c with lines := c.lines.set i r.2 } }

end Sys2Proof.Machine
end

