-- ==== Sys2Proof/Machine/Hierarchy.lean ====
section
/-! DEFINITION. The Cache Hierarchy (41_cache_hierarchy.md): `CacheAccess` on the configured levels, and the
controller driven alone by a sequence of requests (80_interfaces.md R188). -/

namespace Sys2Proof.Machine

/-- A load's event carries the line store's outcome (41_cache_hierarchy.md R93). -/
def Verdict.status : Verdict → Status
  | .hit => .HIT
  | .miss => .MISS

/-- The one Access Event of one consulted level (41_cache_hierarchy.md R93). -/
def eventOf (name : LevelName) (st : Status) (r : Request) (line : Nat) : AccessEvent :=
  { level := name, status := st, pc := r.ipc, address := r.addr, line := line }

/-- One level looked up by a load: the line store is accessed, then one event is emitted (41_cache_hierarchy.md
R92). -/
def loadLevel (name : LevelName) (c : CacheLevel) (r : Request) : CacheLevel × AccessEvent :=
  let res := c.access r.addr
  (res.level, eventOf name res.outcome.status r res.line)

/-- One level marked by a store (41_cache_hierarchy.md R94). With `upd` false `valid` and `tags` stay untouched and
the line is the one the level's decomposition gives (92_eei_decisions.md D8, log 3). -/
def storeLevel (upd : Bool) (name : LevelName) (c : CacheLevel) (r : Request) : CacheLevel × AccessEvent :=
  (if upd then (c.access r.addr).level else c, eventOf name .STORE r (c.cfg.lineUsed r.addr))

/-- The levels after a request and the events it emits, in order. -/
structure CacheResult where
  caches : Levels CacheLevel
  events : List AccessEvent
deriving DecidableEq, Repr

/-- `CacheAccess(LOAD, addr, ipc)` (41_cache_hierarchy.md R92, R95): L2 is consulted only on an L1 miss. -/
def loadAccess (cs : Levels CacheLevel) (r : Request) : CacheResult :=
  match cs with
  | .zero => { caches := .zero, events := [] }
  | .one c1 =>
    let r1 := loadLevel .L1 c1 r
    { caches := .one r1.1, events := [r1.2] }
  | .two c1 c2 =>
    let r1 := loadLevel .L1 c1 r
    if (c1.access r.addr).outcome = .miss then
      let r2 := loadLevel .L2 c2 r
      { caches := .two r1.1 r2.1, events := [r1.2, r2.2] }
    else { caches := .two r1.1 c2, events := [r1.2] }

/-- `CacheAccess(STORE, addr, ipc)` (41_cache_hierarchy.md R94, R95): every level, L1 first. -/
def storeAccess (upd : Bool) (cs : Levels CacheLevel) (r : Request) : CacheResult :=
  match cs with
  | .zero => { caches := .zero, events := [] }
  | .one c1 =>
    let r1 := storeLevel upd .L1 c1 r
    { caches := .one r1.1, events := [r1.2] }
  | .two c1 c2 =>
    let r1 := storeLevel upd .L1 c1 r
    let r2 := storeLevel upd .L2 c2 r
    { caches := .two r1.1 r2.1, events := [r1.2, r2.2] }

/-- `CacheAccess(kind, addr, ipc)` (41_cache_hierarchy.md R91). -/
def cacheAccess (upd : Bool) (cs : Levels CacheLevel) (r : Request) : CacheResult :=
  match r.kind with
  | .load => loadAccess cs r
  | .store => storeAccess upd cs r

/-- The controller driven by a request sequence (80_interfaces.md R188): the levels at the end and all events, in
emission order. -/
def serve (upd : Bool) : Levels CacheLevel → List Request → CacheResult
  | cs, [] => { caches := cs, events := [] }
  | cs, r :: rs =>
    let one := cacheAccess upd cs r
    let rest := serve upd one.caches rs
    { caches := rest.caches, events := one.events ++ rest.events }

end Sys2Proof.Machine
end

