-- ==== Sys2Proof/Machine/Ops.lean ====
section
/-! DEFINITION. The named operations on memory, registers, `pc`, the cache request, the halt, the one exception, and
the fetch. The spec has no return from the exception: "there is no trap-return instruction"; the one way out of the
faulted state is reset (60_exceptions.md R154). -/

namespace Sys2Proof.Machine

/-- What an address that the list does not name reads as: reset clears all 8192 words (10_state.md R16,
70_reset_and_hazards.md R169). -/
def unlistedWord : Word := 0

/-- The word at an address. -/
def Memory.read (m : Memory) (a : Nat) : Word :=
  match m with
  | [] => unlistedWord
  | (k, v) :: rest => if k = a then v else Memory.read rest a

/-- A pair put in front of a list, or nothing where its word is what an unlisted address reads as. -/
def Memory.consCell (a : Nat) (v : Word) (m : Memory) : Memory := if v = unlistedWord then m else (a, v) :: m

/-- The memory with the word at one address replaced, in canonical form. -/
def Memory.write (m : Memory) (a : Nat) (v : Word) : Memory :=
  match m with
  | [] => Memory.consCell a v []
  | (k, u) :: rest =>
    if a < k then Memory.consCell a v ((k, u) :: rest)
    else if a = k then Memory.consCell a v rest
    else (k, u) :: Memory.write rest a v

/-- The canonical form: addresses strictly rising and below 8192, no word equal to `unlistedWord`. -/
def Memory.wf (m : Memory) : Bool :=
  match m with
  | [] => true
  | (a, v) :: rest =>
    decide (a < 8192) && decide (v ≠ unlistedWord) && rest.all (fun c => decide (a < c.1)) && Memory.wf rest

/-- `MemRead(addr, 1)` (20_memory.md R31). -/
def State.memRead (s : State) (a : Addr) : Word := s.mem.read a.toNat

/-- `MemWrite(addr, 1, v)` (20_memory.md R32). -/
def State.memWrite (s : State) (a : Addr) (v : Word) : State := { s with mem := s.mem.write a.toNat v }

/-- `x[i]` (10_state.md R11, R12): `x[0]` always reads as 0. -/
def State.x (s : State) (r : Reg) : Word := if r = 0 then 0 else s.regs[r]

/-- `x[i] <- v` (10_state.md R11, R12): a write to `x[0]` is discarded. -/
def State.setX (s : State) (r : Reg) (v : Word) : State :=
  if r = 0 then s else { s with regs := s.regs.set r v }

/-- `pc <- t` (10_state.md R15). -/
def State.setPc (s : State) (t : Addr) : State := { s with pc := t }

/-- `pc <- (pc + 1) mod 8192` (10_state.md R15). -/
def State.advance (s : State) : State := s.setPc (s.pc + 1)

/-- `t mod 8192` of a 16-bit value (45_control_transfer.md R130). -/
def addrOf (v : Word) : Addr := v.setWidth 13

/-- `zext_16(pc)` (45_control_transfer.md R136). -/
def wordOf (a : Addr) : Word := a.setWidth 16

/-- `CacheAccess(kind, addr, pc)` on the state (41_cache_hierarchy.md R91): the events are appended to `trace`
(10_state.md R25). -/
def State.request (s : State) (kind : AccessKind) (a : Addr) : State :=
  let res := cacheAccess s.params.storeUpdatesCacheState s.caches { kind := kind, addr := a, ipc := s.pc }
  { s with caches := res.caches, trace := s.trace ++ res.events }

/-- `halt` (45_control_transfer.md R134): "nothing else changes". -/
def State.halt (s : State) : State := { s with halted := true }

/-- `raise DecodeError(pc, w)` (60_exceptions.md R146): `fault <- DecodeError`, "nothing else changes". Both `pc` and
`w` stay readable in the state (R147). -/
def State.raiseDecodeError (s : State) : State := { s with fault := .decodeError }

/-- The information that accompanies a `DecodeError` report (60_exceptions.md R147). -/
def State.decodeErrorReport (s : State) : Option (Addr × Word) :=
  match s.fault with
  | .none => none
  | .decodeError => some (s.pc, s.memRead s.pc)

/-- Why no step may be taken, if so (10_state.md R18, 45_control_transfer.md R137). -/
def State.stopped (s : State) : Option Fault :=
  match s.halted, s.fault with
  | true, _ => some .stoppedHalted
  | false, .decodeError => some .stoppedDecodeError
  | false, .none => none

/-- Fetch and decode (45_control_transfer.md R137): no cache access, no event (20_memory.md R41). -/
def State.fetchDecode (s : State) : Decoded := decode s.params.func (s.memRead s.pc)

/-- The outcome of decoding an illegal word: the exception is taken, and it is a next state (log 6). -/
def takeDecodeError (s : State) : Host.Outcome State Fault Refusal := .next s.raiseDecodeError

/-- Places one instruction word where the next step fetches, in a machine that is running (log 9). -/
def State.placeWord (s : State) (w : Word) : State :=
  { s.memWrite s.pc w with halted := false, fault := .none }

/-- Reset applied to a machine: configuration and parameters are constant, every piece of mutable state returns to its
reset value (70_reset_and_hazards.md R165). -/
def State.doReset (s : State) : State := State.resetWith s.params (s.caches.map CacheLevel.cfg)

end Sys2Proof.Machine
end

