-- ==== Sys2Proof/Machine/Operands.lean ====
section
/-! DEFINITION. The operand forms: the one addressing mode (44_load_store.md R119), the relative branch target
(45_control_transfer.md R131), the link value (R136), and the shared shape "write a register, advance `pc`". -/

namespace Sys2Proof.Machine

/-- `EA(rA, imm7) = (x[rA] + sext_16(imm7)) mod 8192` (44_load_store.md R119). -/
def State.ea (s : State) (rA : Reg) (imm : Word) : Addr := addrOf (s.x rA + imm)

/-- `(pc + 1 + sext_16(imm7)) mod 8192` (45_control_transfer.md R131). -/
def State.branchTarget (s : State) (imm : Word) : Addr := addrOf (wordOf s.pc + 1 + imm)

/-- The link value of `jal` (45_control_transfer.md R136): `zext_16(pc) + 1`, or `(pc + 1) mod 8192` under
`linkWraps13` (92_eei_decisions.md D2, log 4). -/
def State.link (s : State) : Word := if s.params.linkWraps13 then wordOf (s.pc + 1) else wordOf s.pc + 1

/-- `x[r] <- v ; pc <- (pc + 1) mod 8192`: the shape of every instruction that only writes a register. -/
def State.writeAdvance (s : State) (r : Reg) (v : Word) : State := (s.setX r v).advance

end Sys2Proof.Machine
end

