-- ==== Sys2Proof/Machine/AluImmediate.lean ====
section
/-! DEFINITION. The register-immediate ALU instructions (43_alu_immediate.md). The immediate arrives sign-extended. -/

namespace Sys2Proof.Machine

/-- `addi $rB,$rA,imm` (43_alu_immediate.md R115). -/
def execAddi (rB rA : Reg) (imm : Word) (s : State) : Host.Outcome State Fault Refusal :=
  .next (s.writeAdvance rB (s.x rA + imm))

/-- `slti $rB,$rA,imm` (43_alu_immediate.md R116): the extended immediate is compared as unsigned. -/
def execSlti (rB rA : Reg) (imm : Word) (s : State) : Host.Outcome State Fault Refusal :=
  .next (s.writeAdvance rB (flagWord (lessUnsigned (s.x rA) imm)))

end Sys2Proof.Machine
end

