-- ==== Sys2Proof/Machine/AluRegister.lean ====
section
/-! DEFINITION. The three-register ALU instructions (42_alu_register.md). -/

namespace Sys2Proof.Machine

/-- `add $rD,$rA,$rB` (42_alu_register.md R105). -/
def execAdd (rD rA rB : Reg) (s : State) : Host.Outcome State Fault Refusal :=
  .next (s.writeAdvance rD (s.x rA + s.x rB))

/-- `sub $rD,$rA,$rB` (42_alu_register.md R106). -/
def execSub (rD rA rB : Reg) (s : State) : Host.Outcome State Fault Refusal :=
  .next (s.writeAdvance rD (s.x rA - s.x rB))

/-- `or $rD,$rA,$rB` (42_alu_register.md R107). -/
def execOr (rD rA rB : Reg) (s : State) : Host.Outcome State Fault Refusal :=
  .next (s.writeAdvance rD (s.x rA ||| s.x rB))

/-- `and $rD,$rA,$rB` (42_alu_register.md R108). -/
def execAnd (rD rA rB : Reg) (s : State) : Host.Outcome State Fault Refusal :=
  .next (s.writeAdvance rD (s.x rA &&& s.x rB))

/-- `slt $rD,$rA,$rB` (42_alu_register.md R109). -/
def execSlt (rD rA rB : Reg) (s : State) : Host.Outcome State Fault Refusal :=
  .next (s.writeAdvance rD (flagWord (lessUnsigned (s.x rA) (s.x rB))))

end Sys2Proof.Machine
end

