-- ==== Sys2Proof/Machine/Control.lean ====
section
/-! DEFINITION. The control transfers and the halt condition (45_control_transfer.md). Targets are never checked
(R133). -/

namespace Sys2Proof.Machine

/-- `jr $rA` (45_control_transfer.md R130). -/
def execJr (rA : Reg) (s : State) : Host.Outcome State Fault Refusal := .next (s.setPc (addrOf (s.x rA)))

/-- `jeq $rA,$rB,imm` (45_control_transfer.md R131). -/
def execJeq (rA rB : Reg) (imm : Word) (s : State) : Host.Outcome State Fault Refusal :=
  if sameWord (s.x rA) (s.x rB) then .next (s.setPc (s.branchTarget imm)) else .next s.advance

/-- `j imm13` (45_control_transfer.md R132), with the halt condition (R134). -/
def execJ (imm13 : Addr) (s : State) : Host.Outcome State Fault Refusal :=
  if imm13 = s.pc then .next s.halt else .next (s.setPc imm13)

/-- `jal imm13` (45_control_transfer.md R136). It never halts (R135). -/
def execJal (imm13 : Addr) (s : State) : Host.Outcome State Fault Refusal :=
  .next ((s.setX 7 s.link).setPc imm13)

end Sys2Proof.Machine
end

