-- ==== Sys2Proof/Machine/LoadStore.lean ====
section
/-! DEFINITION. The load and the store (44_load_store.md): the cache request comes before the memory access (R122). -/

namespace Sys2Proof.Machine

/-- `lw $rB,$rA,imm` (44_load_store.md R120). -/
def execLw (rB rA : Reg) (imm : Word) (s : State) : Host.Outcome State Fault Refusal :=
  let a := s.ea rA imm
  let t := s.request .load a
  .next (t.writeAdvance rB (t.memRead a))

/-- `sw $rB,$rA,imm` (44_load_store.md R121). -/
def execSw (rB rA : Reg) (imm : Word) (s : State) : Host.Outcome State Fault Refusal :=
  let a := s.ea rA imm
  let v := s.x rB
  .next (((s.request .store a).memWrite a v).advance)

end Sys2Proof.Machine
end

