-- ==== Sys2Proof/Machine/Dispatch.lean ====
section
/-! DEFINITION. The one dispatch: each instruction's own meaning (45_control_transfer.md R137). -/

namespace Sys2Proof.Machine

def exec (i : Instr) (s : State) : Host.Outcome State Fault Refusal :=
  match i with
  -- 42_alu_register.md
  | .add rD rA rB => Sys2Proof.Machine.execAdd rD rA rB s
  | .sub rD rA rB => Sys2Proof.Machine.execSub rD rA rB s
  | .or rD rA rB => Sys2Proof.Machine.execOr rD rA rB s
  | .and rD rA rB => Sys2Proof.Machine.execAnd rD rA rB s
  | .slt rD rA rB => Sys2Proof.Machine.execSlt rD rA rB s
  -- 45_control_transfer.md
  | .jr rA => Sys2Proof.Machine.execJr rA s
  -- 43_alu_immediate.md
  | .addi rB rA imm => Sys2Proof.Machine.execAddi rB rA imm s
  -- 45_control_transfer.md
  | .j imm13 => Sys2Proof.Machine.execJ imm13 s
  | .jal imm13 => Sys2Proof.Machine.execJal imm13 s
  -- 44_load_store.md
  | .lw rB rA imm => Sys2Proof.Machine.execLw rB rA imm s
  | .sw rB rA imm => Sys2Proof.Machine.execSw rB rA imm s
  -- 45_control_transfer.md
  | .jeq rA rB imm => Sys2Proof.Machine.execJeq rA rB imm s
  -- 43_alu_immediate.md
  | .slti rB rA imm => Sys2Proof.Machine.execSlti rB rA imm s

end Sys2Proof.Machine
end

