-- ==== Sys2Proof/Machine/Step.lean ====
section
/-! DEFINITION. One step (45_control_transfer.md R137), and the host's placing of one word at the fetch. -/

namespace Sys2Proof.Machine

/-- `Step()` (45_control_transfer.md R137): no step when stopped, else fetch, decode, and execute or raise
`DecodeError`. -/
def step (s : State) : Host.Outcome State Fault Refusal :=
  match s.stopped with
  | some f => .fault f
  | none =>
    match s.fetchDecode with
    | .legal i => exec i s
    | .illegal _ => takeDecodeError s

/-- The state with the instruction of `nbits` bits `w` stored at `pc`, ready to be the next one run (log 9). -/
def State.withFetchWord (s : State) (nbits w : Nat) : State := s.placeWord (tableWord nbits w)

end Sys2Proof.Machine
end

