-- ==== Sys2Proof/Machine/Boot.lean ====
section
/-! DEFINITION. What the host does before the first step (70_reset_and_hazards.md R167; 80_interfaces.md R186, R187):
configure and validate, report, reset, preload. -/

namespace Sys2Proof.Machine

/-- One level from three integers, if legal (00_scope.md R6): a negative one is not. -/
def levelOfInts (size associativity blockSize : Int) : Option LevelConfig :=
  if 0 ≤ size ∧ 0 ≤ associativity ∧ 0 ≤ blockSize then
    let c : LevelConfig := { size := size.toNat, associativity := associativity.toNat, blockSize := blockSize.toNat }
    if c.legal then some c else none
  else none

/-- The configuration interface (80_interfaces.md R186): nothing, 3 or 6 integers, else a configuration error
(60_exceptions.md R152). L1 is checked first (log 11). -/
def configure : List Int → Except ConfigError (Levels LevelConfig)
  | [] => .ok .zero
  | [s, a, b] =>
    match levelOfInts s a b with
    | none => .error (.illegalLevel .L1)
    | some c => .ok (.one c)
  | [s1, a1, b1, s2, a2, b2] =>
    match levelOfInts s1 a1 b1, levelOfInts s2 a2 b2 with
    | none, _ => .error (.illegalLevel .L1)
    | some _, none => .error (.illegalLevel .L2)
    | some c1, some c2 => .ok (.two c1 c2)
  | l => .error (.wrongCount l.length)

/-- The configuration report: one record per configured level, L1 first (80_interfaces.md R186). -/
def configReport (cfg : Levels LevelConfig) : List ConfigReport :=
  cfg.named.map fun p =>
    { name := p.1, size := p.2.size, associativity := p.2.associativity, blocksize := p.2.blockSize,
      numLines := p.2.numLines }

/-- The first thing wrong with an image whose addresses must be at least `least`: strictly rising and below 8192
(60_exceptions.md R151). Gaps are allowed (80_interfaces.md R187, log 10); the first offending pair is
reported, overflow before sequence (log 11). -/
def imageProblem (least : Nat) : List (Nat × Word) → Option LoadError
  | [] => none
  | (a, _) :: rest =>
    if 8192 ≤ a then some (.addressOverflow a)
    else if a < least then some (.outOfSequence a)
    else imageProblem (a + 1) rest

/-- The preload of an image into a memory: the words it names replace what was there (10_state.md R16). -/
def preload (m : Memory) : List (Nat × Word) → Memory
  | [] => m
  | (a, v) :: rest => preload (m.write a v) rest

/-- The start of a run (70_reset_and_hazards.md R167): the configuration report and the state before the first step,
or the error because of which no run exists (60_exceptions.md R150). DESIGN CHOICE (log 22): where the configuration is
legal and the image is refused, the answer is the load error without the report records; R167 orders the report before
the preload and R186 leaves open whether it is delivered then. The configuration is checked before the image, in R167's
order (log 11). -/
def boot (p : Params) (ints : List Int) (image : List (Nat × Word)) : Except BootError (List ConfigReport × State) :=
  match configure ints with
  | .error e => .error (.config e)
  | .ok cfg =>
    match imageProblem 0 image with
    | some e => .error (.load e)
    | none =>
      let s := State.resetWith p cfg
      .ok (configReport cfg, { s with mem := preload s.mem image })

end Sys2Proof.Machine
end

