-- ==== Sys2Proof/Safety.lean ====
section
/-! DEFINITION. The terms claims are stated in: the invariant of a run, what two states agree on, frames, and the
counts of the event stream. -/

namespace Sys2Proof.Machine

/-- The line invariant (40_cache_line_store.md R80 (a) to (c); 10_state.md R21, R22; R71 for the bound of a tag). -/
structure Line.Ok (associativity : Nat) (l : Line) : Prop where
  short   : l.tags.length ≤ max associativity 1
  nodup   : l.tags.Nodup
  valid   : l.valid = true ↔ l.tags ≠ []
  bounded : ∀ t ∈ l.tags, t ≤ 8191

/-- A level as a run has it: a legal configuration (00_scope.md R6), one line per line index (10_state.md R19), every
line within its invariant. -/
structure CacheLevel.Ok (c : CacheLevel) : Prop where
  legal : c.cfg.legal = true
  shape : c.lines.length = c.cfg.numLines
  lines : ∀ l ∈ c.lines, Line.Ok c.cfg.associativity l

/-- An event of the trace names a configured level and one of its lines (10_state.md R24). -/
def EventOk (cs : Levels CacheLevel) (e : AccessEvent) : Prop :=
  ∃ c, cs.at e.level = some c ∧ e.line < c.cfg.numLines

/-- The invariant of a run: memory in canonical form, the stored `x[0]` zero (10_state.md R12), every configured level
in order, events naming existing lines (R24), at most one of `halted` and `fault` set (45_control_transfer.md R138),
and function codes the decoder can tell apart (30_encoding.md R56). -/
structure State.Inv (s : State) : Prop where
  mem    : s.mem.wf = true
  x0     : s.regs[0] = 0
  caches : ∀ c ∈ s.caches.toList, c.Ok
  events : ∀ e ∈ s.trace, EventOk s.caches e
  ends   : s.halted = true → s.fault = .none
  func   : s.params.func.distinct = true

/-- The machine may take a step (10_state.md R18). -/
def State.Running (s : State) : Prop := s.halted = false ∧ s.fault = .none

/-- The constant part: parameters, and every level's configuration (10_state.md R17). -/
def SameConfig (s t : State) : Prop :=
  t.params = s.params ∧ t.caches.map CacheLevel.cfg = s.caches.map CacheLevel.cfg

/-- Every register reads as before. -/
def SameRegs (s t : State) : Prop := ∀ q, t.x q = s.x q

/-- Every register but one reads as before. -/
def SameRegsBut (r : Reg) (s t : State) : Prop := ∀ q, q ≠ r → t.x q = s.x q

/-- Every word of memory reads as before. -/
def SameMem (s t : State) : Prop := ∀ b, t.memRead b = s.memRead b

/-- Every word of memory but one reads as before. -/
def SameMemBut (a : Addr) (s t : State) : Prop := ∀ b, b ≠ a → t.memRead b = s.memRead b

/-- Cache state and trace are as before (41_cache_hierarchy.md: only a request changes them). -/
def SameCache (s t : State) : Prop := t.caches = s.caches ∧ t.trace = s.trace

/-- The run-state is as before (10_state.md R18). -/
def SameRunState (s t : State) : Prop := t.halted = s.halted ∧ t.fault = s.fault

/-- The frame of an instruction that touches registers and `pc` only: memory, cache state, trace, run-state and
parameters are as before. -/
def OnlyRegsAndPc (s t : State) : Prop :=
  SameMem s t ∧ SameCache s t ∧ SameRunState s t ∧ t.params = s.params

/-- What the cache cannot change (20_memory.md R42, 41_cache_hierarchy.md R99): registers, memory, `pc`, `halted`,
`fault`, and the two parameters an instruction's own effect reads. -/
structure SameCore (s t : State) : Prop where
  pc     : t.pc = s.pc
  regs   : t.regs = s.regs
  mem    : t.mem = s.mem
  halted : t.halted = s.halted
  fault  : t.fault = s.fault
  func   : t.params.func = s.params.func
  link   : t.params.linkWraps13 = s.params.linkWraps13

/-- Two outcomes of the same kind: next states related by `R`, or one and the same fault or refusal. -/
def RelOutcome (R : State → State → Prop) :
    Host.Outcome State Fault Refusal → Host.Outcome State Fault Refusal → Prop
  | .next s, .next t => R s t
  | .fault f, .fault g => f = g
  | .refused a, .refused b => a = b
  | _, _ => False

/-- The instruction the next step runs, if the machine is running and the word at `pc` is legal. -/
def State.current (s : State) : Option Instr :=
  match s.stopped with
  | some _ => none
  | none => s.fetchDecode.toOption

/-- The instructions executed in up to `n` steps (41_cache_hierarchy.md R98: "the number of executed"). -/
def executed : Nat → State → List Instr
  | 0, _ => []
  | n + 1, s =>
    match step s with
    | .next t => s.current.toList ++ executed n t
    | .fault _ => []
    | .refused _ => []

/-- The event belongs to a level. -/
def AccessEvent.atLevel (n : LevelName) (e : AccessEvent) : Bool := decide (e.level = n)

/-- The event has a status. -/
def AccessEvent.hasStatus (st : Status) (e : AccessEvent) : Bool := decide (e.status = st)

/-- The event reports a load's outcome at a level: `HIT` or `MISS`. -/
def AccessEvent.loadAt (n : LevelName) (e : AccessEvent) : Bool := e.atLevel n && !e.hasStatus .STORE

/-- The event is an `L1` `MISS`. -/
def AccessEvent.missAtL1 (e : AccessEvent) : Bool := e.atLevel .L1 && e.hasStatus .MISS

/-- The requests of a sequence that reach L2 behind an L1 level: "exactly the loads that missed in L1 and all stores, in
program order" (41_cache_hierarchy.md R96). -/
def l2Stream (upd : Bool) : CacheLevel → List Request → List Request
  | _, [] => []
  | c, r :: rs =>
    match r.kind with
    | .store => r :: l2Stream upd (storeLevel upd .L1 c r).1 rs
    | .load =>
      match (c.access r.addr).outcome with
      | .miss => r :: l2Stream upd (c.access r.addr).level rs
      | .hit => l2Stream upd (c.access r.addr).level rs

/-- The uncapped recency order of a sequence of tags: every tag seen, least recently used first. -/
def recency : List Nat → List Nat → List Nat
  | seen, [] => seen
  | seen, t :: ts => recency (seen.erase t ++ [t]) ts

/-- One line accessed by a sequence of tags, in the class of an associativity (40_cache_line_store.md R72). -/
def Line.accesses (associativity : Nat) : Line → List Nat → Line
  | l, [] => l
  | l, t :: ts => Line.accesses associativity (l.access associativity t).2 ts

/-- The verdicts of the same sequence, in order. -/
def Line.verdicts (associativity : Nat) : Line → List Nat → List Verdict
  | _, [] => []
  | l, t :: ts => (l.access associativity t).1 :: Line.verdicts associativity (l.access associativity t).2 ts

end Sys2Proof.Machine
end

