-- ==== Sys2Proof/Certificates/Slice0/Obligations.lean ====
section
/-! DEFINITION. The statements for the provers, in the order of the spec's files: encoding, cache line store, cache
hierarchy, instructions, the step, reset and boot. Each docstring names what it formalises. -/

open Sys2Proof Sys2Proof.Machine

/-! Encoding (30_encoding.md) -/

/-- The decoder block's outputs are the stated bit slices, and `imm` is the two's-complement widening of `w[6:0]`
(30_encoding.md section 1 and 2, 80_interfaces.md). -/
def Obligations.DecoderFieldsAreTheBitSlices : Prop :=
  ∀ w : Word,
    (fieldsOf w).op.toNat = w.toNat / 8192 ∧ (fieldsOf w).rA.val = w.toNat / 1024 % 8 ∧
    (fieldsOf w).rB.val = w.toNat / 128 % 8 ∧ (fieldsOf w).rD.val = w.toNat / 16 % 8 ∧
    (fieldsOf w).func.toNat = w.toNat % 16 ∧ (fieldsOf w).imm13.toNat = w.toNat % 8192 ∧
    (w.toNat % 128 < 64 → (fieldsOf w).imm.toNat = w.toNat % 128) ∧
    (64 ≤ w.toNat % 128 → (fieldsOf w).imm.toInt = (w.toNat % 128 : Int) - 128 ∧
      (fieldsOf w).imm = BitVec.ofNat 16 (w.toNat % 128) ||| 0xFFC0#16)

/-- A few words of 95_test_vectors.md V-DECODE, one or more per format, decode as the table says. The function codes are
the spec's decision D3 (log 2). -/
def Obligations.SpecWordsDecodeAsListed : Prop :=
  decode decidedFunc 0x0531#16 = .legal (.sub 3 1 2) ∧ decode decidedFunc 0x06A8#16 = .legal (.jr 1) ∧
  decode decidedFunc 0x1FFF#16 = .illegal 0x1FFF#16 ∧ decode decidedFunc 0x22C0#16 = .legal (.addi 5 0 0xFFC0#16) ∧
  decode decidedFunc 0x5FFF#16 = .legal (.j 8191#13) ∧ decode decidedFunc 0x6064#16 = .legal (.jal 100#13) ∧
  decode decidedFunc 0x8505#16 = .legal (.lw 2 1 5#16) ∧ decode decidedFunc 0xA57E#16 = .legal (.sw 2 1 0xFFFE#16) ∧
  decode decidedFunc 0xC503#16 = .legal (.jeq 1 2 3#16) ∧ decode decidedFunc 0xE57F#16 = .legal (.slti 2 1 0xFFFF#16)

/-- Every word decodes to the instruction of the one row of the pattern table it matches, and to no other (30_encoding.md
section 6; the function codes are decision D3, log 2). -/
def Obligations.DecodeAgreesWithPatternTable : Prop :=
  ∀ w : Word, ∀ row ∈ patternTable,
    (row.matches w = true ↔ ∃ i, decode decidedFunc w = .legal i ∧ i.mnemonic = row.mnemonic)

/-- The illegal words are those of opcode 000 whose function code is none of 0, 1, 2, 3, 4, 8, and the decoder reports
the word itself (30_encoding.md section 4, the spec's decisions D3 and D5; logs 2, 21). -/
def Obligations.IllegalWordsAreTheUnassignedFunctionCodes : Prop :=
  ∀ w v : Word, decode decidedFunc w = .illegal v ↔
    v = w ∧ w.toNat < 8192 ∧
      ¬ (w.toNat % 16 = 0 ∨ w.toNat % 16 = 1 ∨ w.toNat % 16 = 2 ∨ w.toNat % 16 = 3 ∨ w.toNat % 16 = 4 ∨
        w.toNat % 16 = 8)

/-- Decode of encode is the instruction, for every well-formed instruction and every table of six different function
codes (30_encoding.md sections 1 to 3; the encoder is the model's own, from section 5's word column). -/
def Obligations.DecodeOfEncodeIsTheInstruction : Prop :=
  ∀ (f : FuncCodes) (i : Instr), f.distinct = true → i.wf = true → decode f (encode f i) = .legal i

/-- Encode of decode is the word, except that the ignored bits 9:4 of a `jr` come back zero (30_encoding.md R59 is the
spec's decision D6; log 13); and whatever decodes is well-formed. -/
def Obligations.EncodeOfDecodeIsTheWord : Prop :=
  ∀ (f : FuncCodes) (w : Word) (i : Instr), decode f w = .legal i →
    i.wf = true ∧ ((∀ rA, i ≠ .jr rA) → encode f i = w) ∧ (∀ rA, i = .jr rA → encode f i = w &&& 0xFC0F#16)

/-! Configuration and the Cache Line Store (00_scope.md, 40_cache_line_store.md) -/

/-- The derived line count (00_scope.md section 4; 1 for associativity 0 is the spec's decision D7, log 17): a legal
level has at least one line, and `numLines * associativity * blockSize = size` for associative and direct levels. -/
def Obligations.LegalLevelHasExactlyItsLines : Prop :=
  ∀ c : LevelConfig, c.legal = true →
    1 ≤ c.numLines ∧ (c.associativity = 0 → c.numLines = 1) ∧
    (c.associativity = 1 → c.numLines = c.size / c.blockSize) ∧
    (1 ≤ c.associativity → c.numLines * c.associativity * c.blockSize = c.size)

/-- The address decomposition: block number by floor division, line and tag its remainder and quotient, their ranges, and
equal pairs exactly for addresses of one block (40_cache_line_store.md section 1). -/
def Obligations.DecompositionIdentifiesTheBlock : Prop :=
  ∀ (c : LevelConfig) (a b : Addr), c.legal = true →
    c.blockID a * c.blockSize ≤ a.toNat ∧ a.toNat < (c.blockID a + 1) * c.blockSize ∧
    c.lineOf a < c.numLines ∧ c.tagOf a * c.numLines + c.lineOf a = c.blockID a ∧
    c.tagOf a ≤ 8191 / (c.blockSize * c.numLines) ∧
    ((c.lineOf a = c.lineOf b ∧ c.tagOf a = c.tagOf b) ↔ c.blockID a = c.blockID b)

/-- For powers of two the decomposition is bit slicing (00_scope.md section 4): bit `n` of the line is bit `bw + n` of the
address for `n < lw`, and bit `n` of the tag is bit `bw + lw + n`. -/
def Obligations.PowerOfTwoDecompositionIsBitSlicing : Prop :=
  ∀ (c : LevelConfig) (bw lw n : Nat) (a : Addr), c.blockSize = 2 ^ bw → c.numLines = 2 ^ lw →
    (c.lineOf a).testBit n = (decide (n < lw) && a.getLsbD (bw + n)) ∧
    (c.tagOf a).testBit n = a.getLsbD (bw + lw + n)

/-- Direct-mapped access (40_cache_line_store.md R73). -/
def Obligations.DirectMappedAccess : Prop :=
  ∀ (c : CacheLevel) (a : Addr), c.Ok → c.cfg.associativity = 1 →
    (c.access a).line = c.cfg.lineOf a ∧
    ((c.access a).outcome = .hit ↔
      (c.line (c.cfg.lineOf a)).valid = true ∧ (c.line (c.cfg.lineOf a)).tags = [c.cfg.tagOf a]) ∧
    (c.access a).level.line (c.cfg.lineOf a) = { valid := true, tags := [c.cfg.tagOf a] } ∧
    (∀ j, j ≠ c.cfg.lineOf a → (c.access a).level.line j = c.line j) ∧
    (c.access a).level.cfg = c.cfg

/-- Fully-associative access: line 0 alone, the tag is the block number (40_cache_line_store.md section 4; decisions D7 and
D25, log 17). Only the most recently stored block can hit. -/
def Obligations.FullyAssociativeAccess : Prop :=
  ∀ (c : CacheLevel) (a : Addr), c.Ok → c.cfg.associativity = 0 →
    (c.access a).line = 0 ∧
    ((c.access a).outcome = .hit ↔ (c.line 0).valid = true ∧ (c.line 0).tags = [a.toNat / c.cfg.blockSize]) ∧
    (c.access a).level.line 0 = { valid := true, tags := [a.toNat / c.cfg.blockSize] } ∧
    (∀ j, j ≠ 0 → (c.access a).level.line j = c.line j)

/-- Set-associative access (40_cache_line_store.md R75, R76): membership decides; a hit moves the tag to the back; a miss
appends it, evicting the front tag only of a full line; no other line changes. -/
def Obligations.SetAssociativeAccess : Prop :=
  ∀ (c : CacheLevel) (a : Addr), c.Ok → 1 < c.cfg.associativity →
    (c.access a).line = c.cfg.lineOf a ∧
    ((c.access a).outcome = .hit ↔ c.cfg.tagOf a ∈ (c.line (c.cfg.lineOf a)).tags) ∧
    (∀ before after, (c.line (c.cfg.lineOf a)).tags = before ++ c.cfg.tagOf a :: after →
      (c.access a).level.line (c.cfg.lineOf a) =
        { valid := (c.line (c.cfg.lineOf a)).valid, tags := before ++ after ++ [c.cfg.tagOf a] }) ∧
    (c.cfg.tagOf a ∉ (c.line (c.cfg.lineOf a)).tags →
      (c.line (c.cfg.lineOf a)).tags.length < c.cfg.associativity →
      (c.access a).level.line (c.cfg.lineOf a) =
        { valid := true, tags := (c.line (c.cfg.lineOf a)).tags ++ [c.cfg.tagOf a] }) ∧
    (∀ victim rest, c.cfg.tagOf a ∉ (c.line (c.cfg.lineOf a)).tags →
      (c.line (c.cfg.lineOf a)).tags = victim :: rest → (victim :: rest).length = c.cfg.associativity →
      (c.access a).level.line (c.cfg.lineOf a) = { valid := true, tags := rest ++ [c.cfg.tagOf a] }) ∧
    (∀ j, j ≠ c.cfg.lineOf a → (c.access a).level.line j = c.line j)

/-- After an access the block is resident and the most recent of its line, and any address of the same block then hits
(40_cache_line_store.md section 6, the first law). -/
def Obligations.AccessedBlockIsResidentAndMostRecent : Prop :=
  ∀ (c : CacheLevel) (a b : Addr), c.Ok → c.cfg.blockID b = c.cfg.blockID a →
    ((c.access a).level.line (c.access a).line).valid = true ∧
    ((c.access a).level.line (c.access a).line).tags.getLast? = some (c.cfg.tagUsed a) ∧
    ((c.access a).level.access b).outcome = .hit

/-- The worked property of the two-way class, from any empty line and for any three different tags
(40_cache_line_store.md section 5). -/
def Obligations.TwoWayEvictsTheLeastRecentlyUsed : Prop :=
  ∀ (l : Line) (A B C : Nat), l.tags = [] → A ≠ B → A ≠ C → B ≠ C →
    Line.verdicts 2 l [A, B, C, B] = [.miss, .miss, .miss, .hit] ∧
    Line.verdicts 2 l [A, B, C, A] = [.miss, .miss, .miss, .miss]

/-- One algorithm for all classes (40_cache_line_store.md section 6): the direct-mapped algorithm is the LRU algorithm with
one way, and a fully-associative level behaves as the direct-mapped level of one line with its block size. -/
def Obligations.OneAlgorithmServesEveryClass : Prop :=
  (∀ (tag : Nat) (l : Line), Line.Ok 1 l → l.accessLru 1 tag = l.accessSingle tag) ∧
  (∀ (c d : CacheLevel) (a : Addr), c.cfg.associativity = 0 → 1 ≤ c.cfg.blockSize →
    d.cfg = { size := c.cfg.blockSize, associativity := 1, blockSize := c.cfg.blockSize } → d.lines = c.lines →
    (c.access a).outcome = (d.access a).outcome ∧ (c.access a).line = (d.access a).line ∧
    (c.access a).level.lines = (d.access a).level.lines)

/-- LRU replacement as a whole: after any sequence of accesses a line holds the most recently used different tags, as
many as it has ways, least recent first (00_scope.md glossary "LRU"; 40_cache_line_store.md sections 3 to 6). -/
def Obligations.LineHoldsTheMostRecentTags : Prop :=
  ∀ (n : Nat) (l : Line) (ts : List Nat), Line.Ok n l →
    (Line.accesses n l ts).tags = (recency l.tags ts).drop ((recency l.tags ts).length - max n 1)

/-! The Cache Hierarchy (41_cache_hierarchy.md) -/

/-- A load consults L1, and L2 exactly on an L1 miss, with one event per level consulted, L1 first (41_cache_hierarchy.md
R92, R93), appended to the trace by `lw`. -/
def Obligations.LoadConsultsL2ExactlyOnL1Miss : Prop :=
  ∀ (s : State) (rB rA : Reg) (imm : Word),
    ∃ t, exec (.lw rB rA imm) s = .next t ∧
    (∀ c, s.caches = .one c →
      t.caches = .one (c.access (s.ea rA imm)).level ∧
      t.trace = s.trace ++
        [⟨.L1, (c.access (s.ea rA imm)).outcome.status, s.pc, s.ea rA imm, (c.access (s.ea rA imm)).line⟩]) ∧
    (∀ c d, s.caches = .two c d → (c.access (s.ea rA imm)).outcome = .hit →
      t.caches = .two (c.access (s.ea rA imm)).level d ∧
      t.trace = s.trace ++ [⟨.L1, .HIT, s.pc, s.ea rA imm, (c.access (s.ea rA imm)).line⟩]) ∧
    (∀ c d, s.caches = .two c d → (c.access (s.ea rA imm)).outcome = .miss →
      t.caches = .two (c.access (s.ea rA imm)).level (d.access (s.ea rA imm)).level ∧
      t.trace = s.trace ++
        [⟨.L1, .MISS, s.pc, s.ea rA imm, (c.access (s.ea rA imm)).line⟩,
         ⟨.L2, (d.access (s.ea rA imm)).outcome.status, s.pc, s.ea rA imm, (d.access (s.ea rA imm)).line⟩]) ∧
    (s.caches = .zero → t.caches = .zero ∧ t.trace = s.trace)

/-- A store is reported as STORE at every configured level, L1 first, whatever L1 would have answered; the lines change
as for a load, or not at all, by the parameter `storeUpdatesCacheState` (41_cache_hierarchy.md section 3; decision D8,
log 3). With no cache nothing happens (section 4, D10). -/
def Obligations.StoreMarksEveryLevel : Prop :=
  ∀ (s : State) (rB rA : Reg) (imm : Word),
    ∃ t, exec (.sw rB rA imm) s = .next t ∧
    (∀ c, s.caches = .one c →
      t.trace = s.trace ++ [⟨.L1, .STORE, s.pc, s.ea rA imm, (c.access (s.ea rA imm)).line⟩] ∧
      (s.params.storeUpdatesCacheState = true → t.caches = .one (c.access (s.ea rA imm)).level) ∧
      (s.params.storeUpdatesCacheState = false → t.caches = .one c)) ∧
    (∀ c d, s.caches = .two c d →
      t.trace = s.trace ++
        [⟨.L1, .STORE, s.pc, s.ea rA imm, (c.access (s.ea rA imm)).line⟩,
         ⟨.L2, .STORE, s.pc, s.ea rA imm, (d.access (s.ea rA imm)).line⟩] ∧
      (s.params.storeUpdatesCacheState = true →
        t.caches = .two (c.access (s.ea rA imm)).level (d.access (s.ea rA imm)).level) ∧
      (s.params.storeUpdatesCacheState = false → t.caches = .two c d)) ∧
    (s.caches = .zero → t.caches = .zero ∧ t.trace = s.trace)

/-- Independence of levels (41_cache_hierarchy.md section 5): for every request sequence, L1 behind two levels goes as L1
alone, and L2 goes as a cache alone that is fed exactly the L1 load misses and all stores. -/
def Obligations.LevelsAreIndependent : Prop :=
  ∀ (upd : Bool) (rs : List Request) (c d : CacheLevel),
    ∃ c' d', (serve upd (.two c d) rs).caches = .two c' d' ∧
      (serve upd (.one c) rs).caches = .one c' ∧
      (serve upd (.one d) (l2Stream upd c rs)).caches = .one d' ∧
      (serve upd (.two c d) rs).events.filter (AccessEvent.atLevel .L1) = (serve upd (.one c) rs).events ∧
      ((serve upd (.two c d) rs).events.filter (AccessEvent.atLevel .L2)).map
          (fun e => (e.status, e.pc, e.address, e.line)) =
        (serve upd (.one d) (l2Stream upd c rs)).events.map (fun e => (e.status, e.pc, e.address, e.line))

/-- The counting laws, over any run from any state (41_cache_hierarchy.md section 5, "Counting laws"). -/
def Obligations.EventCountsMatchExecutedInstructions : Prop :=
  ∀ (n : Nat) (s t : State), Host.Core.run Sys2Proof.core n s = .next t →
    ∃ es, t.trace = s.trace ++ es ∧
      (1 ≤ s.caches.count →
        es.countP (AccessEvent.atLevel .L1) = (executed n s).countP (fun i => i.isLoad || i.isStore)) ∧
      es.countP (AccessEvent.hasStatus .STORE) = s.caches.count * (executed n s).countP Instr.isStore ∧
      (s.caches.count = 2 → es.countP (AccessEvent.loadAt .L2) = es.countP AccessEvent.missAtL1) ∧
      (s.caches.count < 2 → es.countP (AccessEvent.atLevel .L2) = 0)

/-- The cache is transparent (20_memory.md section 4, 41_cache_hierarchy.md section 5): two machines alike in registers,
memory, `pc` and run-state, with whatever cache configurations, cache states, traces and store policies, go on alike
for any number of steps. -/
def Obligations.CacheNeverChangesTheProgram : Prop :=
  ∀ (n : Nat) (s t : State), SameCore s t →
    RelOutcome SameCore (Host.Core.run Sys2Proof.core n s) (Host.Core.run Sys2Proof.core n t)

/-- A step only appends to the trace; it touches trace and cache state only for a `lw` or `sw`; its events carry the
address of that instruction, and STORE exactly for a `sw` (10_state.md section 7; 20_memory.md section 4;
41_cache_hierarchy.md sections 1 and 5). -/
def Obligations.OnlyLoadsAndStoresEmitEvents : Prop :=
  ∀ s t : State, step s = .next t →
    ∃ es, t.trace = s.trace ++ es ∧ es.length ≤ s.caches.count ∧
      (∀ e ∈ es, e.pc = s.pc) ∧
      (∀ i, s.current = some i → i.isStore = true → ∀ e ∈ es, e.status = .STORE) ∧
      (∀ i, s.current = some i → i.isLoad = true → ∀ e ∈ es, e.status ≠ .STORE) ∧
      ((∀ i, s.current = some i → i.isLoad = false ∧ i.isStore = false) → es = [] ∧ t.caches = s.caches)

/-! The instructions (42_alu_register.md to 45_control_transfer.md). Each statement gives the encoding, says that the
instruction completes, the new values, and that everything else is as before. -/

/-- `add` (42_alu_register.md R105). -/
def Obligations.AddWritesTheSum : Prop :=
  ∀ (s : State) (rD rA rB : Reg),
    (∀ f : FuncCodes, f.distinct = true →
      decode f (BitVec.ofNat 16 (rA.val * 1024 + rB.val * 128 + rD.val * 16 + f.add.toNat)) = .legal (.add rD rA rB)) ∧
    ∃ t, exec (.add rD rA rB) s = .next t ∧
      (∀ q, (t.x q).toNat = if q = rD ∧ q ≠ 0 then ((s.x rA).toNat + (s.x rB).toNat) % 65536 else (s.x q).toNat) ∧
      t.pc.toNat = (s.pc.toNat + 1) % 8192 ∧ OnlyRegsAndPc s t

/-- `sub` (42_alu_register.md R106): `x[rA] - x[rB]`, wrapping. -/
def Obligations.SubWritesTheDifference : Prop :=
  ∀ (s : State) (rD rA rB : Reg),
    (∀ f : FuncCodes, f.distinct = true →
      decode f (BitVec.ofNat 16 (rA.val * 1024 + rB.val * 128 + rD.val * 16 + f.sub.toNat)) = .legal (.sub rD rA rB)) ∧
    ∃ t, exec (.sub rD rA rB) s = .next t ∧
      (∀ q, ((t.x q).toNat : Int) =
        if q = rD ∧ q ≠ 0 then ((s.x rA).toNat - (s.x rB).toNat : Int) % 65536 else (s.x q).toNat) ∧
      t.pc.toNat = (s.pc.toNat + 1) % 8192 ∧ OnlyRegsAndPc s t

/-- `or` (42_alu_register.md R107), bit by bit. -/
def Obligations.OrWritesTheBitwiseOr : Prop :=
  ∀ (s : State) (rD rA rB : Reg),
    (∀ f : FuncCodes, f.distinct = true →
      decode f (BitVec.ofNat 16 (rA.val * 1024 + rB.val * 128 + rD.val * 16 + f.or.toNat)) = .legal (.or rD rA rB)) ∧
    ∃ t, exec (.or rD rA rB) s = .next t ∧
      (rD ≠ 0 → ∀ n, (t.x rD).getLsbD n = ((s.x rA).getLsbD n || (s.x rB).getLsbD n)) ∧
      (∀ q, q ≠ rD ∨ q = 0 → t.x q = s.x q) ∧
      t.pc.toNat = (s.pc.toNat + 1) % 8192 ∧ OnlyRegsAndPc s t

/-- `and` (42_alu_register.md R108), bit by bit. -/
def Obligations.AndWritesTheBitwiseAnd : Prop :=
  ∀ (s : State) (rD rA rB : Reg),
    (∀ f : FuncCodes, f.distinct = true →
      decode f (BitVec.ofNat 16 (rA.val * 1024 + rB.val * 128 + rD.val * 16 + f.and.toNat)) = .legal (.and rD rA rB)) ∧
    ∃ t, exec (.and rD rA rB) s = .next t ∧
      (rD ≠ 0 → ∀ n, (t.x rD).getLsbD n = ((s.x rA).getLsbD n && (s.x rB).getLsbD n)) ∧
      (∀ q, q ≠ rD ∨ q = 0 → t.x q = s.x q) ∧
      t.pc.toNat = (s.pc.toNat + 1) % 8192 ∧ OnlyRegsAndPc s t

/-- `slt` (42_alu_register.md R109), unsigned. -/
def Obligations.SltWritesTheUnsignedComparison : Prop :=
  ∀ (s : State) (rD rA rB : Reg),
    (∀ f : FuncCodes, f.distinct = true →
      decode f (BitVec.ofNat 16 (rA.val * 1024 + rB.val * 128 + rD.val * 16 + f.slt.toNat)) = .legal (.slt rD rA rB)) ∧
    ∃ t, exec (.slt rD rA rB) s = .next t ∧
      (∀ q, (t.x q).toNat =
        if q = rD ∧ q ≠ 0 then (if (s.x rA).toNat < (s.x rB).toNat then 1 else 0) else (s.x q).toNat) ∧
      t.pc.toNat = (s.pc.toNat + 1) % 8192 ∧ OnlyRegsAndPc s t

/-- `addi` (43_alu_immediate.md R115): the immediate is the signed value -64 to 63 of its seven bits. -/
def Obligations.AddiAddsTheSignedImmediate : Prop :=
  ∀ (s : State) (rB rA : Reg) (imm7 : BitVec 7),
    (∀ f : FuncCodes, decode f (BitVec.ofNat 16 (0x2000 + rA.val * 1024 + rB.val * 128 + imm7.toNat)) =
      .legal (.addi rB rA (sext16 imm7))) ∧
    ∃ t, exec (.addi rB rA (sext16 imm7)) s = .next t ∧
      (∀ q, ((t.x q).toNat : Int) =
        if q = rB ∧ q ≠ 0 then ((s.x rA).toNat + imm7.toInt) % 65536 else (s.x q).toNat) ∧
      t.pc.toNat = (s.pc.toNat + 1) % 8192 ∧ OnlyRegsAndPc s t

/-- `slti` (43_alu_immediate.md R116): the comparand is the extended immediate read as unsigned, 0 to 63 or 65472 to
65535. -/
def Obligations.SltiComparesTheExtendedImmediateUnsigned : Prop :=
  ∀ (s : State) (rB rA : Reg) (imm7 : BitVec 7),
    (∀ f : FuncCodes, decode f (BitVec.ofNat 16 (0xE000 + rA.val * 1024 + rB.val * 128 + imm7.toNat)) =
      .legal (.slti rB rA (sext16 imm7))) ∧
    ∃ t, exec (.slti rB rA (sext16 imm7)) s = .next t ∧
      (∀ q, (t.x q).toNat =
        if q = rB ∧ q ≠ 0 then
          (if (s.x rA).toNat < (if imm7.toNat < 64 then imm7.toNat else imm7.toNat + 65408) then 1 else 0)
        else (s.x q).toNat) ∧
      t.pc.toNat = (s.pc.toNat + 1) % 8192 ∧ OnlyRegsAndPc s t

/-- The effective address (44_load_store.md R119). -/
def Obligations.EffectiveAddressWraps : Prop :=
  ∀ (s : State) (rA : Reg) (imm7 : BitVec 7),
    ((s.ea rA (sext16 imm7)).toNat : Int) = ((s.x rA).toNat + imm7.toInt) % 8192

/-- `lw` (44_load_store.md R120): the request, the whole word of `mem[EA]` whatever the cache did, `pc + 1`; a load to
`x[0]` still makes its request. -/
def Obligations.LwLoadsTheWordAndMakesOneRequest : Prop :=
  ∀ (s : State) (rB rA : Reg) (imm7 : BitVec 7),
    (∀ f : FuncCodes, decode f (BitVec.ofNat 16 (0x8000 + rA.val * 1024 + rB.val * 128 + imm7.toNat)) =
      .legal (.lw rB rA (sext16 imm7))) ∧
    ∃ t, exec (.lw rB rA (sext16 imm7)) s = .next t ∧
      ∀ a, s.ea rA (sext16 imm7) = a →
        (∀ q, t.x q = if q = rB ∧ q ≠ 0 then s.memRead a else s.x q) ∧
        t.caches = (cacheAccess s.params.storeUpdatesCacheState s.caches ⟨.load, a, s.pc⟩).caches ∧
        t.trace = s.trace ++ (cacheAccess s.params.storeUpdatesCacheState s.caches ⟨.load, a, s.pc⟩).events ∧
        t.pc.toNat = (s.pc.toNat + 1) % 8192 ∧ SameMem s t ∧ SameRunState s t ∧ t.params = s.params

/-- `sw` (44_load_store.md R121): the request, the whole register to `mem[EA]` and to no other word, `pc + 1`, no register
written. The memory premise is the canonical form, which every step keeps (StepKeepsTheInvariant). -/
def Obligations.SwStoresTheRegisterAndMakesOneRequest : Prop :=
  ∀ (s : State) (rB rA : Reg) (imm7 : BitVec 7),
    (∀ f : FuncCodes, decode f (BitVec.ofNat 16 (0xA000 + rA.val * 1024 + rB.val * 128 + imm7.toNat)) =
      .legal (.sw rB rA (sext16 imm7))) ∧
    ∃ t, exec (.sw rB rA (sext16 imm7)) s = .next t ∧
      (∀ a, s.ea rA (sext16 imm7) = a →
        (s.mem.wf = true → t.memRead a = s.x rB ∧ SameMemBut a s t) ∧
        t.caches = (cacheAccess s.params.storeUpdatesCacheState s.caches ⟨.store, a, s.pc⟩).caches ∧
        t.trace = s.trace ++ (cacheAccess s.params.storeUpdatesCacheState s.caches ⟨.store, a, s.pc⟩).events) ∧
      t.pc.toNat = (s.pc.toNat + 1) % 8192 ∧ SameRegs s t ∧ SameRunState s t ∧ t.params = s.params

/-- `jr` (45_control_transfer.md R130): the low 13 bits of the register; bits 9:4 of the word are ignored. -/
def Obligations.JrJumpsToTheRegister : Prop :=
  ∀ (s : State) (rA : Reg) (ignored : BitVec 6),
    (∀ f : FuncCodes, f.distinct = true →
      decode f (BitVec.ofNat 16 (rA.val * 1024 + ignored.toNat * 16 + f.jr.toNat)) = .legal (.jr rA)) ∧
    ∃ t, exec (.jr rA) s = .next t ∧ t.pc.toNat = (s.x rA).toNat % 8192 ∧ SameRegs s t ∧ OnlyRegsAndPc s t

/-- `jeq` (45_control_transfer.md R131): relative to the next instruction, taken when all 16 bits are equal. -/
def Obligations.JeqBranchesWhenEqual : Prop :=
  ∀ (s : State) (rA rB : Reg) (imm7 : BitVec 7),
    (∀ f : FuncCodes, decode f (BitVec.ofNat 16 (0xC000 + rA.val * 1024 + rB.val * 128 + imm7.toNat)) =
      .legal (.jeq rA rB (sext16 imm7))) ∧
    ∃ t, exec (.jeq rA rB (sext16 imm7)) s = .next t ∧
      ((s.x rA).toNat = (s.x rB).toNat → (t.pc.toNat : Int) = (s.pc.toNat + 1 + imm7.toInt) % 8192) ∧
      ((s.x rA).toNat ≠ (s.x rB).toNat → t.pc.toNat = (s.pc.toNat + 1) % 8192) ∧
      SameRegs s t ∧ OnlyRegsAndPc s t

/-- `j` (45_control_transfer.md R132, R134): to the absolute target, or, at its own address, the halt, after which `pc` and
everything else are as before and no step is taken. -/
def Obligations.JJumpsOrHaltsAtItself : Prop :=
  ∀ (s : State) (imm13 : Addr),
    (∀ f : FuncCodes, decode f (BitVec.ofNat 16 (0x4000 + imm13.toNat)) = .legal (.j imm13)) ∧
    ∃ t, exec (.j imm13) s = .next t ∧
      (imm13 ≠ s.pc → t.pc = imm13 ∧ t.halted = s.halted) ∧
      (imm13 = s.pc → t.pc = s.pc ∧ t.halted = true ∧ ∀ u, step t ≠ .next u) ∧
      t.fault = s.fault ∧ SameRegs s t ∧ SameMem s t ∧ SameCache s t ∧ t.params = s.params

/-- `jal` (45_control_transfer.md, `jal imm13`): the link in `x[7]`, whose value at `pc` = 8191 is the parameter
`linkWraps13` (decision D2, log 4), then the jump; it never halts, at its own address either. -/
def Obligations.JalLinksAndJumps : Prop :=
  ∀ (s : State) (imm13 : Addr),
    (∀ f : FuncCodes, decode f (BitVec.ofNat 16 (0x6000 + imm13.toNat)) = .legal (.jal imm13)) ∧
    ∃ t, exec (.jal imm13) s = .next t ∧ t.pc = imm13 ∧
      (s.params.linkWraps13 = false → (t.x 7).toNat = s.pc.toNat + 1) ∧
      (s.params.linkWraps13 = true → (t.x 7).toNat = (s.pc.toNat + 1) % 8192) ∧
      SameRegsBut 7 s t ∧ OnlyRegsAndPc s t

/-! The step (45_control_transfer.md R137, 60_exceptions.md) -/

/-- A step runs the decoded instruction (45_control_transfer.md, "The step function and the run"): fetch at `pc`, decode,
execute; an illegal word raises DecodeError, which changes only `fault` (60_exceptions.md section 1, decision D12; that it
is a next state is the model's reading, log 6, DEDUCED); a stopped machine takes no step; `x[0]` reads 0 afterwards. -/
def Obligations.StepRunsTheDecodedInstruction : Prop :=
  ∀ s : State,
    (∀ i, s.halted = false → s.fault = .none → decode s.params.func (s.memRead s.pc) = .legal i →
      step s = exec i s) ∧
    (∀ w, s.halted = false → s.fault = .none → decode s.params.func (s.memRead s.pc) = .illegal w →
      step s = .next { s with fault := .decodeError }) ∧
    (s.halted = true ∨ s.fault ≠ .none → ∀ t, step s ≠ .next t) ∧
    (∀ t, step s = .next t → t.x 0 = 0)

/-- DecodeError is precise and terminal (60_exceptions.md section 1; the spec's decisions D5, log 21, and D12): nothing but
`fault` changes, and the report is `pc` and the word; that the step at an illegal word is a next state is the model's
reading (log 6, DEDUCED). The spec has no step after that (10_state.md section 5); that `step` then answers the outcome
`.fault .stoppedDecodeError` is the model's choice (log 7, DESIGN CHOICE). -/
def Obligations.DecodeErrorIsPreciseAndTerminal : Prop :=
  ∀ (s : State) (w : Word), s.Running → decode s.params.func (s.memRead s.pc) = .illegal w →
    ∃ t, step s = .next t ∧ t.fault = .decodeError ∧ t.halted = false ∧ t.pc = s.pc ∧ SameRegs s t ∧ t.mem = s.mem ∧
      SameCache s t ∧ t.params = s.params ∧ t.decodeErrorReport = some (s.pc, w) ∧
      step t = .fault .stoppedDecodeError

/-- Nothing else faults (60_exceptions.md section 1): every running machine, and no other, has a next step, at an illegal
word too (45_control_transfer.md, "The step function and the run"; decisions D12, D24; that an illegal word's step is a
next state is the model's reading, log 6, DEDUCED); every instruction completes in every state, and `fault` is set only
by an illegal word. -/
def Obligations.NothingElseFaults : Prop :=
  (∀ s : State, s.Running ↔ ∃ t, step s = .next t) ∧
  (∀ (i : Instr) (s : State), ∃ t, exec i s = .next t ∧ t.fault = s.fault) ∧
  (∀ s t : State, step s = .next t → (t.fault = .decodeError ↔ ∃ w, s.fetchDecode = .illegal w))

/-- Only `j` to its own address halts (45_control_transfer.md section "Only `j` can halt"). -/
def Obligations.OnlyASelfJumpHalts : Prop :=
  ∀ s t : State, step s = .next t → (t.halted = true ↔ s.fetchDecode = .legal (.j s.pc))

/-- A step changes at most the one register the executed instruction names, never `x[0]` (10_state.md section 2,
30_encoding.md section 1). -/
def Obligations.OnlyTheDestinationRegisterChanges : Prop :=
  ∀ s t : State, step s = .next t → ∀ q, t.x q ≠ s.x q →
    q ≠ 0 ∧ ∃ i, s.fetchDecode = .legal i ∧ i.dest = some q

/-- Memory is "mutated only by store instructions" (10_state.md section 4, 20_memory.md section 1): a word that a step
changes is the one at the effective address of the executed `sw`, and it becomes the stored register. -/
def Obligations.OnlyAStoreChangesMemory : Prop :=
  ∀ s t : State, s.mem.wf = true → step s = .next t → ∀ b, t.memRead b ≠ s.memRead b →
    ∃ rB rA imm, s.fetchDecode = .legal (.sw rB rA imm) ∧ b = s.ea rA imm ∧ t.memRead b = s.x rB

/-- A non-transfer instruction goes on to the next address, wrapping from 8191 to 0; an illegal word and a halt leave `pc`
(10_state.md section 3; 45_control_transfer.md; 60_exceptions.md section 1). -/
def Obligations.PcAdvancesExceptOnTransfers : Prop :=
  ∀ s t : State, step s = .next t →
    (∀ i, s.fetchDecode = .legal i → i.isTransfer = false → t.pc.toNat = (s.pc.toNat + 1) % 8192) ∧
    ((∃ w, s.fetchDecode = .illegal w) ∨ s.fetchDecode = .legal (.j s.pc) → t.pc = s.pc)

/-- No instruction and no event changes the configuration (10_state.md section 5); nor the model's parameters. -/
def Obligations.StepKeepsTheConfiguration : Prop :=
  ∀ s t : State, step s = .next t → SameConfig s t

/-- A line once valid stays valid (40_cache_line_store.md section 6 (d), 20_memory.md section 4). -/
def Obligations.ValidLinesStayValid : Prop :=
  ∀ (s t : State) (n : LevelName) (c d : CacheLevel) (i : Nat), step s = .next t →
    s.caches.at n = some c → t.caches.at n = some d → (c.line i).valid = true → (d.line i).valid = true

/-- A store is seen by the next fetch (20_memory.md section 3, fetch coherence): a `sw` over the following address runs
normally, and the next step executes the stored word. -/
def Obligations.StoredWordIsFetchedNext : Prop :=
  ∀ (s : State) (rB rA : Reg) (imm : Word) (i : Instr), s.mem.wf = true → s.Running →
    s.fetchDecode = .legal (.sw rB rA imm) → s.ea rA imm = s.pc + 1 → decode s.params.func (s.x rB) = .legal i →
    ∃ t, step s = .next t ∧ t.pc = s.pc + 1 ∧ step t = exec i t

/-- A load returns the latest store to its address, whatever the cache did (20_memory.md section 3, first guarantee). -/
def Obligations.LoadReturnsTheLatestStore : Prop :=
  ∀ (s : State) (rB rA rC rE : Reg) (immS immL : Word), s.mem.wf = true → s.ea rA immS = s.ea rE immL →
    ∃ t u, exec (.sw rB rA immS) s = .next t ∧ exec (.lw rC rE immL) t = .next u ∧
      ∀ q, u.x q = if q = rC ∧ q ≠ 0 then s.x rB else s.x q

/-- The invariant holds after every step from any state that has it: canonical memory, stored `x[0]` zero, legal and
orderly cache levels (40_cache_line_store.md section 6), events naming existing lines (10_state.md section 7), at most one
way of ending (45_control_transfer.md, the run). -/
def Obligations.StepKeepsTheInvariant : Prop :=
  ∀ s t : State, s.Inv → step s = .next t → t.Inv

/-! Reset and boot (70_reset_and_hazards.md, 80_interfaces.md, 00_scope.md) -/

/-- Reset puts every piece of mutable state at its value, for any configuration and parameters (70_reset_and_hazards.md
section 1; the cache part is the spec's decision D11), and again when applied to any state. -/
def Obligations.ResetSetsEveryField : Prop :=
  ∀ (p : Params) (cfg : Levels LevelConfig) (s : State),
    s = State.resetWith p cfg ∨ (∃ u : State, s = u.doReset ∧ p = u.params ∧ cfg = u.caches.map CacheLevel.cfg) →
    s.pc = 0 ∧ (∀ r, s.x r = 0) ∧ (∀ a, s.memRead a = 0) ∧ s.halted = false ∧ s.fault = .none ∧ s.trace = [] ∧
    s.params = p ∧ s.caches.map CacheLevel.cfg = cfg ∧
    ∀ c ∈ s.caches.toList, c.lines.length = c.cfg.numLines ∧ ∀ l ∈ c.lines, l.valid = false ∧ l.tags = []

/-- The reset state meets the invariant, for any legal configuration; so does `State.reset`, whose configuration (no cache)
is the model's choice (log 1). -/
def Obligations.ResetMeetsTheInvariant : Prop :=
  State.reset.Inv ∧
  ∀ (p : Params) (cfg : Levels LevelConfig), p.func.distinct = true → (∀ c ∈ cfg.toList, c.legal = true) →
    (State.resetWith p cfg).Inv

/-- The configuration interface accepts nothing, three or six integers that make legal levels, and no other list
(80_interfaces.md, configuration interface; 60_exceptions.md section 2; legality is the spec's decision D9, no cache its
decision D10; log 11). -/
def Obligations.ConfigureAcceptsExactlyLegalLists : Prop :=
  ∀ (ints : List Int) (cfg : Levels LevelConfig),
    (configure ints = .ok cfg ↔
      (∀ c ∈ cfg.toList, c.legal = true) ∧
      ints = cfg.toList.flatMap (fun c => [(c.size : Int), (c.associativity : Int), (c.blockSize : Int)])) ∧
    (ints.length ≠ 0 → ints.length ≠ 3 → ints.length ≠ 6 → configure ints = .error (.wrongCount ints.length))

/-- Boot (70_reset_and_hazards.md section 2; 80_interfaces.md, preload): the report has one record per level, the named words
are in memory, every other word is 0, everything else is as reset leaves it, and the invariant holds. -/
def Obligations.BootLoadsTheImage : Prop :=
  ∀ (p : Params) (ints : List Int) (image : List (Nat × Word)) (reports : List ConfigReport) (s : State),
    boot p ints image = .ok (reports, s) →
    ∃ cfg, configure ints = .ok cfg ∧
      reports = cfg.named.map (fun q => ⟨q.1, q.2.size, q.2.associativity, q.2.blockSize, q.2.numLines⟩) ∧
      (∀ c ∈ image, c.1 < 8192 ∧ s.memRead (BitVec.ofNat 13 c.1) = c.2) ∧
      (∀ a : Addr, (∀ c ∈ image, c.1 ≠ a.toNat) → s.memRead a = 0) ∧
      s = { State.resetWith p cfg with mem := s.mem } ∧ (p.func.distinct = true → s.Inv)

/-- A run exists exactly for a legal configuration and an image of rising addresses below 8192 (60_exceptions.md section 2;
that gaps are accepted is the model's choice, log 10). -/
def Obligations.BootRefusesExactlyBadInputs : Prop :=
  ∀ (p : Params) (ints : List Int) (image : List (Nat × Word)),
    (∃ r, boot p ints image = .ok r) ↔
      (∃ cfg, configure ints = .ok cfg) ∧ image.Pairwise (fun c d => c.1 < d.1) ∧ ∀ c ∈ image, c.1 < 8192
end

