-- ==== Sys2Proof/Laws/Decode.lean ====
section
/-! SUPPORT. The decoder's fields and the encoder's words as arithmetic on `toNat` (30_encoding.md R51, R53). -/

namespace Sys2Proof

@[simp] theorem regField_val (w : Word) (lo : Nat) : (regField w lo).val = w.toNat / 2 ^ lo % 8 := by
  simp [regField, Nat.shiftRight_eq_div_pow]

theorem field_toNat (w : Word) (lo len : Nat) : (w.extractLsb' lo len).toNat = w.toNat / 2 ^ lo % 2 ^ len := by
  simp [BitVec.extractLsb'_toNat, Nat.shiftRight_eq_div_pow]

/-- `sext_16` as the notation table gives it (00_scope.md section 5): `v`, or `v + 65408`. -/
theorem sext16_toNat (v : BitVec 7) : (sext16 v).toNat = if v.toNat < 64 then v.toNat else v.toNat + 65408 := by
  revert v; decide

/-- The sign extension of a field is reachable. -/
theorem immReachable_sext16 (v : BitVec 7) : immReachable (sext16 v) = true := by
  revert v; decide

theorem packR_toNat (a b d : Reg) (f : BitVec 4) :
    (packR a b d f).toNat = a.val * 1024 + b.val * 128 + d.val * 16 + f.toNat := by
  have := f.isLt
  simp only [packR, BitVec.toNat_ofNat]
  omega

theorem packI_toNat {op : Nat} (h : op < 8) (a b : Reg) (imm : Word) :
    (packI op a b imm).toNat = op * 8192 + a.val * 1024 + b.val * 128 + imm.toNat % 128 := by
  simp only [packI, BitVec.toNat_ofNat]
  omega

theorem packJ_toNat {op : Nat} (h : op < 8) (t : Addr) : (packJ op t).toNat = op * 8192 + t.toNat := by
  have := t.isLt
  simp only [packJ, BitVec.toNat_ofNat]
  omega

/-- The opcode test, as arithmetic. -/
theorem op_eq_iff (w : Word) (k : BitVec 3) : (fieldsOf w).op = k ↔ w.toNat / 8192 = k.toNat := by
  have hw := w.isLt
  rw [← BitVec.toNat_inj]
  simp only [fieldsOf, field_toNat]
  omega

/-- The function-code test, as arithmetic. -/
theorem func_eq_iff (w : Word) (k : BitVec 4) : (fieldsOf w).func = k ↔ w.toNat % 16 = k.toNat := by
  rw [← BitVec.toNat_inj]
  simp [fieldsOf]

theorem regField_eq {w : Word} {lo : Nat} {r : Reg} (h : w.toNat / 2 ^ lo % 8 = r.val) : regField w lo = r :=
  Fin.ext (by rw [regField_val, h])

/-- The immediate field, as the notation table gives it (00_scope.md section 5). -/
theorem imm_toNat (w : Word) :
    (fieldsOf w).imm.toNat = if w.toNat % 128 < 64 then w.toNat % 128 else w.toNat % 128 + 65408 := by
  simp [fieldsOf, sext16_toNat]

/-- A reachable immediate comes back from its low seven bits. -/
theorem imm_eq {w imm : Word} (h : immReachable imm = true) (hw : w.toNat % 128 = imm.toNat % 128) :
    (fieldsOf w).imm = imm := by
  simp only [immReachable, decide_eq_true_eq] at h
  have := imm.isLt
  apply BitVec.eq_of_toNat_eq
  rw [imm_toNat]
  split <;> omega

/-- The decoder's answer, by the value of `w[15:13]` (30_encoding.md R55, R57): a claim about it has these eight
cases. -/
theorem decode_by_opcode {f : FuncCodes} {w : Word} {P : Decoded → Prop}
    (h0 : w.toNat / 8192 = 0 → P (decodeR f w (fieldsOf w)))
    (h1 : w.toNat / 8192 = 1 → P (.legal (.addi (fieldsOf w).rB (fieldsOf w).rA (fieldsOf w).imm)))
    (h2 : w.toNat / 8192 = 2 → P (.legal (.j (fieldsOf w).imm13)))
    (h3 : w.toNat / 8192 = 3 → P (.legal (.jal (fieldsOf w).imm13)))
    (h4 : w.toNat / 8192 = 4 → P (.legal (.lw (fieldsOf w).rB (fieldsOf w).rA (fieldsOf w).imm)))
    (h5 : w.toNat / 8192 = 5 → P (.legal (.sw (fieldsOf w).rB (fieldsOf w).rA (fieldsOf w).imm)))
    (h6 : w.toNat / 8192 = 6 → P (.legal (.jeq (fieldsOf w).rA (fieldsOf w).rB (fieldsOf w).imm)))
    (h7 : w.toNat / 8192 = 7 → P (.legal (.slti (fieldsOf w).rB (fieldsOf w).rA (fieldsOf w).imm))) :
    P (decode f w) := by
  have hw := w.isLt
  have hr : w.toNat / 8192 = 0 ∨ w.toNat / 8192 = 1 ∨ w.toNat / 8192 = 2 ∨ w.toNat / 8192 = 3 ∨
      w.toNat / 8192 = 4 ∨ w.toNat / 8192 = 5 ∨ w.toNat / 8192 = 6 ∨ w.toNat / 8192 = 7 := by omega
  simp only [decode, op_eq_iff]
  rcases hr with h | h | h | h | h | h | h | h <;> simp [h]
  · exact h0 h
  · exact h1 h
  · exact h2 h
  · exact h3 h
  · exact h4 h
  · exact h5 h
  · exact h6 h
  · exact h7 h

/-- Six different function codes, pair by pair, as numbers. -/
theorem distinct_iff (f : FuncCodes) :
    f.distinct = true ↔
      (f.add.toNat ≠ f.sub.toNat ∧ f.add.toNat ≠ f.or.toNat ∧ f.add.toNat ≠ f.and.toNat ∧ f.add.toNat ≠ f.slt.toNat ∧
        f.add.toNat ≠ f.jr.toNat) ∧
      (f.sub.toNat ≠ f.or.toNat ∧ f.sub.toNat ≠ f.and.toNat ∧ f.sub.toNat ≠ f.slt.toNat ∧ f.sub.toNat ≠ f.jr.toNat) ∧
      (f.or.toNat ≠ f.and.toNat ∧ f.or.toNat ≠ f.slt.toNat ∧ f.or.toNat ≠ f.jr.toNat) ∧
      (f.and.toNat ≠ f.slt.toNat ∧ f.and.toNat ≠ f.jr.toNat) ∧ f.slt.toNat ≠ f.jr.toNat := by
  simp only [FuncCodes.distinct, decide_eq_true_eq, List.pairwise_cons, List.mem_cons, List.not_mem_nil, or_false,
    forall_eq_or_imp, forall_eq, IsEmpty.forall_iff, implies_true, List.Pairwise.nil, and_true, ne_eq,
    BitVec.toNat_inj]

end Sys2Proof
end

