-- ==== Sys2Proof/Laws/State.lean ====
section
/-! SUPPORT. Every field of the state after every named update, and registers and memory words read after an update:
no later proof unfolds a record update. -/

namespace Sys2Proof.Machine

@[simp] theorem State.pc_setX (s : State) (r : Reg) (v : Word) : (s.setX r v).pc = s.pc := by unfold State.setX; split <;> rfl
@[simp] theorem State.mem_setX (s : State) (r : Reg) (v : Word) : (s.setX r v).mem = s.mem := by unfold State.setX; split <;> rfl
@[simp] theorem State.caches_setX (s : State) (r : Reg) (v : Word) : (s.setX r v).caches = s.caches := by unfold State.setX; split <;> rfl
@[simp] theorem State.halted_setX (s : State) (r : Reg) (v : Word) : (s.setX r v).halted = s.halted := by unfold State.setX; split <;> rfl
@[simp] theorem State.fault_setX (s : State) (r : Reg) (v : Word) : (s.setX r v).fault = s.fault := by unfold State.setX; split <;> rfl
@[simp] theorem State.trace_setX (s : State) (r : Reg) (v : Word) : (s.setX r v).trace = s.trace := by unfold State.setX; split <;> rfl
@[simp] theorem State.params_setX (s : State) (r : Reg) (v : Word) : (s.setX r v).params = s.params := by unfold State.setX; split <;> rfl

@[simp] theorem State.pc_setPc (s : State) (t : Addr) : (s.setPc t).pc = t := rfl
@[simp] theorem State.regs_setPc (s : State) (t : Addr) : (s.setPc t).regs = s.regs := rfl
@[simp] theorem State.mem_setPc (s : State) (t : Addr) : (s.setPc t).mem = s.mem := rfl
@[simp] theorem State.caches_setPc (s : State) (t : Addr) : (s.setPc t).caches = s.caches := rfl
@[simp] theorem State.halted_setPc (s : State) (t : Addr) : (s.setPc t).halted = s.halted := rfl
@[simp] theorem State.fault_setPc (s : State) (t : Addr) : (s.setPc t).fault = s.fault := rfl
@[simp] theorem State.trace_setPc (s : State) (t : Addr) : (s.setPc t).trace = s.trace := rfl
@[simp] theorem State.params_setPc (s : State) (t : Addr) : (s.setPc t).params = s.params := rfl

@[simp] theorem State.pc_advance (s : State) : (s.advance).pc = s.pc + 1 := rfl
@[simp] theorem State.regs_advance (s : State) : (s.advance).regs = s.regs := rfl
@[simp] theorem State.mem_advance (s : State) : (s.advance).mem = s.mem := rfl
@[simp] theorem State.caches_advance (s : State) : (s.advance).caches = s.caches := rfl
@[simp] theorem State.halted_advance (s : State) : (s.advance).halted = s.halted := rfl
@[simp] theorem State.fault_advance (s : State) : (s.advance).fault = s.fault := rfl
@[simp] theorem State.trace_advance (s : State) : (s.advance).trace = s.trace := rfl
@[simp] theorem State.params_advance (s : State) : (s.advance).params = s.params := rfl

@[simp] theorem State.pc_memWrite (s : State) (a : Addr) (v : Word) : (s.memWrite a v).pc = s.pc := rfl
@[simp] theorem State.regs_memWrite (s : State) (a : Addr) (v : Word) : (s.memWrite a v).regs = s.regs := rfl
@[simp] theorem State.mem_memWrite (s : State) (a : Addr) (v : Word) : (s.memWrite a v).mem = s.mem.write a.toNat v := rfl
@[simp] theorem State.caches_memWrite (s : State) (a : Addr) (v : Word) : (s.memWrite a v).caches = s.caches := rfl
@[simp] theorem State.halted_memWrite (s : State) (a : Addr) (v : Word) : (s.memWrite a v).halted = s.halted := rfl
@[simp] theorem State.fault_memWrite (s : State) (a : Addr) (v : Word) : (s.memWrite a v).fault = s.fault := rfl
@[simp] theorem State.trace_memWrite (s : State) (a : Addr) (v : Word) : (s.memWrite a v).trace = s.trace := rfl
@[simp] theorem State.params_memWrite (s : State) (a : Addr) (v : Word) : (s.memWrite a v).params = s.params := rfl

@[simp] theorem State.pc_request (s : State) (k : AccessKind) (a : Addr) : (s.request k a).pc = s.pc := rfl
@[simp] theorem State.regs_request (s : State) (k : AccessKind) (a : Addr) : (s.request k a).regs = s.regs := rfl
@[simp] theorem State.mem_request (s : State) (k : AccessKind) (a : Addr) : (s.request k a).mem = s.mem := rfl
@[simp] theorem State.caches_request (s : State) (k : AccessKind) (a : Addr) : (s.request k a).caches = (cacheAccess s.params.storeUpdatesCacheState s.caches ⟨k, a, s.pc⟩).caches := rfl
@[simp] theorem State.halted_request (s : State) (k : AccessKind) (a : Addr) : (s.request k a).halted = s.halted := rfl
@[simp] theorem State.fault_request (s : State) (k : AccessKind) (a : Addr) : (s.request k a).fault = s.fault := rfl
@[simp] theorem State.trace_request (s : State) (k : AccessKind) (a : Addr) : (s.request k a).trace = s.trace ++ (cacheAccess s.params.storeUpdatesCacheState s.caches ⟨k, a, s.pc⟩).events := rfl
@[simp] theorem State.params_request (s : State) (k : AccessKind) (a : Addr) : (s.request k a).params = s.params := rfl

@[simp] theorem State.pc_halt (s : State) : (s.halt).pc = s.pc := rfl
@[simp] theorem State.regs_halt (s : State) : (s.halt).regs = s.regs := rfl
@[simp] theorem State.mem_halt (s : State) : (s.halt).mem = s.mem := rfl
@[simp] theorem State.caches_halt (s : State) : (s.halt).caches = s.caches := rfl
@[simp] theorem State.halted_halt (s : State) : (s.halt).halted = true := rfl
@[simp] theorem State.fault_halt (s : State) : (s.halt).fault = s.fault := rfl
@[simp] theorem State.trace_halt (s : State) : (s.halt).trace = s.trace := rfl
@[simp] theorem State.params_halt (s : State) : (s.halt).params = s.params := rfl

@[simp] theorem State.pc_raiseDecodeError (s : State) : (s.raiseDecodeError).pc = s.pc := rfl
@[simp] theorem State.regs_raiseDecodeError (s : State) : (s.raiseDecodeError).regs = s.regs := rfl
@[simp] theorem State.mem_raiseDecodeError (s : State) : (s.raiseDecodeError).mem = s.mem := rfl
@[simp] theorem State.caches_raiseDecodeError (s : State) : (s.raiseDecodeError).caches = s.caches := rfl
@[simp] theorem State.halted_raiseDecodeError (s : State) : (s.raiseDecodeError).halted = s.halted := rfl
@[simp] theorem State.fault_raiseDecodeError (s : State) : (s.raiseDecodeError).fault = FaultStatus.decodeError := rfl
@[simp] theorem State.trace_raiseDecodeError (s : State) : (s.raiseDecodeError).trace = s.trace := rfl
@[simp] theorem State.params_raiseDecodeError (s : State) : (s.raiseDecodeError).params = s.params := rfl

@[simp] theorem State.pc_placeWord (s : State) (w : Word) : (s.placeWord w).pc = s.pc := rfl
@[simp] theorem State.regs_placeWord (s : State) (w : Word) : (s.placeWord w).regs = s.regs := rfl
@[simp] theorem State.mem_placeWord (s : State) (w : Word) : (s.placeWord w).mem = s.mem.write s.pc.toNat w := rfl
@[simp] theorem State.caches_placeWord (s : State) (w : Word) : (s.placeWord w).caches = s.caches := rfl
@[simp] theorem State.halted_placeWord (s : State) (w : Word) : (s.placeWord w).halted = false := rfl
@[simp] theorem State.fault_placeWord (s : State) (w : Word) : (s.placeWord w).fault = FaultStatus.none := rfl
@[simp] theorem State.trace_placeWord (s : State) (w : Word) : (s.placeWord w).trace = s.trace := rfl
@[simp] theorem State.params_placeWord (s : State) (w : Word) : (s.placeWord w).params = s.params := rfl

@[simp] theorem State.pc_writeAdvance (s : State) (r : Reg) (v : Word) : (s.writeAdvance r v).pc = s.pc + 1 := by simp [State.writeAdvance]
@[simp] theorem State.regs_writeAdvance (s : State) (r : Reg) (v : Word) : (s.writeAdvance r v).regs = (s.setX r v).regs := rfl
@[simp] theorem State.mem_writeAdvance (s : State) (r : Reg) (v : Word) : (s.writeAdvance r v).mem = s.mem := by simp [State.writeAdvance]
@[simp] theorem State.caches_writeAdvance (s : State) (r : Reg) (v : Word) : (s.writeAdvance r v).caches = s.caches := by simp [State.writeAdvance]
@[simp] theorem State.halted_writeAdvance (s : State) (r : Reg) (v : Word) : (s.writeAdvance r v).halted = s.halted := by simp [State.writeAdvance]
@[simp] theorem State.fault_writeAdvance (s : State) (r : Reg) (v : Word) : (s.writeAdvance r v).fault = s.fault := by simp [State.writeAdvance]
@[simp] theorem State.trace_writeAdvance (s : State) (r : Reg) (v : Word) : (s.writeAdvance r v).trace = s.trace := by simp [State.writeAdvance]
@[simp] theorem State.params_writeAdvance (s : State) (r : Reg) (v : Word) : (s.writeAdvance r v).params = s.params := by simp [State.writeAdvance]

/-- `x[0]` reads 0 in every state (10_state.md R12). -/
@[simp] theorem State.x_zero (s : State) : s.x 0 = 0 := by simp [State.x]

/-- A register read depends on the stored registers only. -/
theorem State.x_congr {s t : State} (h : t.regs = s.regs) (q : Reg) : t.x q = s.x q := by simp [State.x, h]

/-- Everything a register write does to register reads (10_state.md R11, R12). -/
theorem State.x_setX (s : State) (r q : Reg) (v : Word) :
    (s.setX r v).x q = if q = r ∧ r ≠ 0 then v else s.x q := by
  unfold State.setX
  by_cases hr : r = 0
  · simp [hr]
  · by_cases hq : q = r
    · subst hq; simp [hr, State.x]
    · have hne : (r : Nat) ≠ (q : Nat) := fun h => hq (Fin.ext h.symm)
      simp [hr, hq, State.x, Vector.getElem_set_ne, hne]

/-- A write to a register other than the one read leaves the read alone. -/
theorem State.x_setX_ne (s : State) {r q : Reg} (h : q ≠ r) (v : Word) : (s.setX r v).x q = s.x q := by
  simp [State.x_setX, h]

/-- A register write never touches the stored `x[0]`. -/
theorem State.regs_zero_setX (s : State) (r : Reg) (v : Word) : (s.setX r v).regs[0] = s.regs[0] := by
  unfold State.setX
  by_cases hr : r = 0
  · simp [hr]
  · have hne : (r : Nat) ≠ 0 := fun h => hr (Fin.ext h)
    simp [hr, Vector.getElem_set_ne, hne]

@[simp] theorem State.x_setPc (s : State) (t : Addr) (q : Reg) : (s.setPc t).x q = s.x q := State.x_congr (by simp) q
@[simp] theorem State.x_advance (s : State) (q : Reg) : (s.advance).x q = s.x q := State.x_congr (by simp) q
@[simp] theorem State.x_memWrite (s : State) (a : Addr) (v : Word) (q : Reg) : (s.memWrite a v).x q = s.x q := State.x_congr (by simp) q
@[simp] theorem State.x_request (s : State) (k : AccessKind) (a : Addr) (q : Reg) : (s.request k a).x q = s.x q := State.x_congr (by simp) q
@[simp] theorem State.x_halt (s : State) (q : Reg) : (s.halt).x q = s.x q := State.x_congr (by simp) q
@[simp] theorem State.x_raiseDecodeError (s : State) (q : Reg) : (s.raiseDecodeError).x q = s.x q := State.x_congr (by simp) q
@[simp] theorem State.x_placeWord (s : State) (w : Word) (q : Reg) : (s.placeWord w).x q = s.x q := State.x_congr (by simp) q

@[simp] theorem State.x_writeAdvance (s : State) (r : Reg) (v : Word) (q : Reg) :
    (s.writeAdvance r v).x q = if q = r ∧ r ≠ 0 then v else s.x q := by
  simp [State.writeAdvance, State.x_setX]

/-- A memory read depends on the memory only. -/
theorem State.memRead_congr {s t : State} (h : t.mem = s.mem) (b : Addr) : t.memRead b = s.memRead b := by
  simp [State.memRead, h]

@[simp] theorem State.memRead_setX (s : State) (r : Reg) (v : Word) (b : Addr) : (s.setX r v).memRead b = s.memRead b :=
  State.memRead_congr (by simp) b
@[simp] theorem State.memRead_setPc (s : State) (t : Addr) (b : Addr) : (s.setPc t).memRead b = s.memRead b :=
  State.memRead_congr (by simp) b
@[simp] theorem State.memRead_advance (s : State) (b : Addr) : (s.advance).memRead b = s.memRead b :=
  State.memRead_congr (by simp) b
@[simp] theorem State.memRead_request (s : State) (k : AccessKind) (a : Addr) (b : Addr) : (s.request k a).memRead b = s.memRead b :=
  State.memRead_congr (by simp) b
@[simp] theorem State.memRead_halt (s : State) (b : Addr) : (s.halt).memRead b = s.memRead b :=
  State.memRead_congr (by simp) b
@[simp] theorem State.memRead_raiseDecodeError (s : State) (b : Addr) : (s.raiseDecodeError).memRead b = s.memRead b :=
  State.memRead_congr (by simp) b
@[simp] theorem State.memRead_writeAdvance (s : State) (r : Reg) (v : Word) (b : Addr) : (s.writeAdvance r v).memRead b = s.memRead b :=
  State.memRead_congr (by simp) b

/-- The stop reason is none exactly in a running machine (10_state.md R18). -/
theorem State.stopped_eq_none {s : State} : s.stopped = none ↔ s.Running := by
  unfold State.stopped State.Running
  cases s.halted <;> cases s.fault <;> simp

/-- The stop reasons, in full (10_state.md R18). -/
theorem State.stopped_eq (s : State) :
    s.stopped = if s.halted then some .stoppedHalted
      else if s.fault = .decodeError then some .stoppedDecodeError else none := by
  unfold State.stopped
  cases s.halted <;> cases s.fault <;> simp

end Sys2Proof.Machine
end

