-- ==== Sys2Proof/Laws/LineStore.lean ====
section
/-! SUPPORT. The laws of the Cache Line Store: what one line access can do, that it keeps the line invariant, and the
ranges of the address decomposition (40_cache_line_store.md). -/

namespace Sys2Proof

/-- A legal configuration has a positive block size and line count (00_scope.md R6). -/
theorem LevelConfig.pos_of_legal {c : LevelConfig} (h : c.legal = true) : 0 < c.blockSize ∧ 0 < c.numLines := by
  simp only [LevelConfig.legal, decide_eq_true_eq] at h
  obtain ⟨hs, hb, hd⟩ := h
  refine ⟨hb, ?_⟩
  unfold LevelConfig.numLines
  split
  · exact Nat.one_pos
  · rename_i h0
    have hdvd := hd (by omega)
    split
    · rename_i h1
      rw [h1, Nat.mul_one] at hdvd
      exact Nat.div_pos (Nat.le_of_dvd hs hdvd) hb
    · exact Nat.div_pos (Nat.le_of_dvd hs hdvd) (Nat.mul_pos hb (by omega))

theorem LevelConfig.numLines_full {c : LevelConfig} (h : c.associativity = 0) : c.numLines = 1 := by
  simp [LevelConfig.numLines, h]

/-- The line used is a line of the level (40_cache_line_store.md R71, R74). -/
theorem LevelConfig.lineUsed_lt {c : LevelConfig} (h : c.legal = true) (a : Addr) : c.lineUsed a < c.numLines := by
  obtain ⟨-, hn⟩ := LevelConfig.pos_of_legal h
  unfold LevelConfig.lineUsed
  split
  · exact hn
  · exact Nat.mod_lt _ hn

/-- 13 bits hold any tag (40_cache_line_store.md R71). -/
theorem LevelConfig.tagUsed_le (c : LevelConfig) (a : Addr) : c.tagUsed a ≤ 8191 := by
  have h : a.toNat / c.blockSize ≤ 8191 := Nat.le_trans (Nat.div_le_self _ _) (by have := a.isLt; omega)
  unfold LevelConfig.tagUsed LevelConfig.tagOf LevelConfig.blockID
  split
  · exact h
  · exact Nat.le_trans (Nat.div_le_self _ _) h

namespace Machine

/-- Everything a single-tag access can do (40_cache_line_store.md R73, R74). -/
theorem Line.accessSingle_cases (tag : Nat) (l : Line) :
    ((l.accessSingle tag) = (.hit, l) ∧ l.valid = true ∧ l.tags = [tag]) ∨
    ((l.accessSingle tag) = (.miss, { valid := true, tags := [tag] }) ∧ ¬ (l.valid = true ∧ l.tags = [tag])) := by
  unfold Line.accessSingle
  cases hv : l.valid
  · simp
  · by_cases ht : l.tags = [tag]
    · left; simp [ht]
    · right; simp [ht]

/-- Everything a set-associative access can do (40_cache_line_store.md R75, R76). -/
theorem Line.accessLru_cases (n tag : Nat) (l : Line) :
    (tag ∈ l.tags ∧ l.accessLru n tag = (.hit, { l with tags := l.tags.erase tag ++ [tag] })) ∨
    (tag ∉ l.tags ∧ l.accessLru n tag = (.miss, { valid := true, tags := evict n l.tags ++ [tag] })) := by
  unfold Line.accessLru
  by_cases h : tag ∈ l.tags
  · exact .inl ⟨h, if_pos h⟩
  · exact .inr ⟨h, if_neg h⟩

/-- The tags kept before a new one is appended are some of the old ones, in their old order. -/
theorem evict_sublist (n : Nat) (tags : List Nat) : (evict n tags).Sublist tags := by
  unfold evict
  split
  · exact List.drop_sublist 1 tags
  · exact List.Sublist.refl tags

theorem evict_length {n : Nat} (hn : 0 < n) {tags : List Nat} (h : tags.length ≤ n) : (evict n tags).length < n := by
  unfold evict
  split
  · rw [List.length_drop]; omega
  · omega

theorem Line.blank_ok (n : Nat) : Line.Ok n Line.blank :=
  { short := by simp [Line.blank]
    nodup := by simp [Line.blank]
    valid := by simp [Line.blank]
    bounded := by simp [Line.blank] }

theorem Line.accessSingle_ok {n tag : Nat} {l : Line} (h : Line.Ok n l) (ht : tag ≤ 8191) :
    Line.Ok n (l.accessSingle tag).2 := by
  rcases l.accessSingle_cases tag with ⟨he, -, -⟩ | ⟨he, -⟩ <;> rw [he]
  · exact h
  · exact { short := by simp, nodup := by simp, valid := by simp, bounded := by simpa using ht }

theorem Line.accessLru_ok {n tag : Nat} {l : Line} (hn : 1 < n) (h : Line.Ok n l) (ht : tag ≤ 8191) :
    Line.Ok n (l.accessLru n tag).2 := by
  have hshort : l.tags.length ≤ n := by have := h.short; omega
  rcases l.accessLru_cases n tag with ⟨hm, he⟩ | ⟨hm, he⟩ <;> rw [he]
  · have hnot : tag ∉ l.tags.erase tag := h.nodup.not_mem_erase
    refine { short := ?_, nodup := ?_, valid := ?_, bounded := ?_ }
    · have := List.length_erase_of_mem hm
      have := List.length_pos_of_mem hm
      simp only [List.length_append, List.length_singleton]
      omega
    · exact List.nodup_append.2 ⟨h.nodup.erase tag, by simp, by
        intro a ha b hb hab
        rw [List.mem_singleton] at hb
        rw [hab, hb] at ha
        exact hnot ha⟩
    · simpa using h.valid.2 (List.ne_nil_of_mem hm)
    · intro t h'
      rcases List.mem_append.1 h' with h' | h'
      · exact h.bounded t (List.mem_of_mem_erase h')
      · rw [List.mem_singleton] at h'; omega
  · have hsub := evict_sublist n l.tags
    refine { short := ?_, nodup := ?_, valid := by simp, bounded := ?_ }
    · have := evict_length (by omega : 0 < n) hshort
      simp only [List.length_append, List.length_singleton]
      omega
    · exact List.nodup_append.2 ⟨h.nodup.sublist hsub, by simp, by
        intro a ha b hb hab
        rw [List.mem_singleton] at hb
        rw [hab, hb] at ha
        exact hm (hsub.subset ha)⟩
    · intro t h'
      rcases List.mem_append.1 h' with h' | h'
      · exact h.bounded t (hsub.subset h')
      · rw [List.mem_singleton] at h'; omega

/-- Every class keeps the line invariant (40_cache_line_store.md R80). -/
theorem Line.access_ok {n tag : Nat} {l : Line} (h : Line.Ok n l) (ht : tag ≤ 8191) : Line.Ok n (l.access n tag).2 := by
  unfold Line.access
  split
  · exact Line.accessSingle_ok h ht
  · exact Line.accessLru_ok (by omega) h ht

/-- What `LineAccess` returns besides the new line: the line index is the one the class uses. -/
@[simp] theorem CacheLevel.access_line (c : CacheLevel) (a : Addr) : (c.access a).line = c.cfg.lineUsed a := rfl

@[simp] theorem CacheLevel.access_outcome (c : CacheLevel) (a : Addr) :
    (c.access a).outcome = ((c.line (c.cfg.lineUsed a)).access c.cfg.associativity (c.cfg.tagUsed a)).1 := rfl

@[simp] theorem CacheLevel.access_cfg (c : CacheLevel) (a : Addr) : (c.access a).level.cfg = c.cfg := rfl

theorem CacheLevel.access_lines (c : CacheLevel) (a : Addr) :
    (c.access a).level.lines = c.lines.set (c.cfg.lineUsed a)
      ((c.line (c.cfg.lineUsed a)).access c.cfg.associativity (c.cfg.tagUsed a)).2 := rfl

/-- Reading a line after an access: the accessed line is replaced, every other is as before (40_cache_line_store.md
R72). -/
theorem CacheLevel.line_access {c : CacheLevel} {a : Addr} (h : c.cfg.lineUsed a < c.lines.length) (i : Nat) :
    (c.access a).level.line i =
      if i = c.cfg.lineUsed a then ((c.line (c.cfg.lineUsed a)).access c.cfg.associativity (c.cfg.tagUsed a)).2
      else c.line i := by
  simp only [CacheLevel.line, CacheLevel.access_lines, List.getD_eq_getElem?_getD, List.getElem?_set]
  by_cases hi : i = c.cfg.lineUsed a
  · subst hi; simp [h]
  · simp [hi, Ne.symm hi]

theorem CacheLevel.line_ok {c : CacheLevel} (h : c.Ok) (i : Nat) : Line.Ok c.cfg.associativity (c.line i) := by
  unfold CacheLevel.line
  rw [List.getD_eq_getElem?_getD]
  rcases hi : c.lines[i]? with _ | l
  · exact Line.blank_ok _
  · exact h.lines l (List.mem_of_getElem? hi)

theorem CacheLevel.fresh_ok {c : LevelConfig} (h : c.legal = true) : (CacheLevel.fresh c).Ok :=
  { legal := h
    shape := by simp [CacheLevel.fresh]
    lines := fun l hl => by rw [List.eq_of_mem_replicate hl]; exact Line.blank_ok _ }

/-- An access keeps a level in order (40_cache_line_store.md R80). -/
theorem CacheLevel.access_ok {c : CacheLevel} (h : c.Ok) (a : Addr) : (c.access a).level.Ok :=
  { legal := h.legal
    shape := by rw [CacheLevel.access_lines, List.length_set]; exact h.shape
    lines := fun l hl => by
      rw [CacheLevel.access_lines] at hl
      rcases List.mem_or_eq_of_mem_set hl with hl | rfl
      · exact h.lines l hl
      · exact Line.access_ok (CacheLevel.line_ok h _) (LevelConfig.tagUsed_le _ _) }

/-- In an orderly level the line used is one of its lines. -/
theorem CacheLevel.lineUsed_lt {c : CacheLevel} (h : c.Ok) (a : Addr) : c.cfg.lineUsed a < c.lines.length := by
  rw [h.shape]; exact LevelConfig.lineUsed_lt h.legal a

end Machine

end Sys2Proof
end

