-- ==== Sys2Proof/Laws/Hierarchy.lean ====
section
/-! SUPPORT. The laws of the Cache Hierarchy: everything one request can do, case by case, and what it keeps
(41_cache_hierarchy.md). -/

namespace Sys2Proof.Machine

/-- A level after one request, as the hierarchy leaves it: untouched, or accessed. -/
theorem storeLevel_cases (upd : Bool) (n : LevelName) (c : CacheLevel) (r : Request) :
    (storeLevel upd n c r).1 = c ∨ (storeLevel upd n c r).1 = (c.access r.addr).level := by
  cases upd
  · exact .inl rfl
  · exact .inr rfl

@[simp] theorem cacheAccess_zero (upd : Bool) (r : Request) :
    cacheAccess upd .zero r = { caches := .zero, events := [] } := by
  unfold cacheAccess; cases r.kind <;> rfl

/-- A load on one level (41_cache_hierarchy.md R92). -/
theorem cacheAccess_load_one (upd : Bool) (c : CacheLevel) (a p : Addr) :
    cacheAccess upd (.one c) ⟨.load, a, p⟩ =
      { caches := .one (c.access a).level
        events := [⟨.L1, (c.access a).outcome.status, p, a, c.cfg.lineUsed a⟩] } := rfl

/-- A load on two levels that hits in L1 (41_cache_hierarchy.md R92): L2 is not consulted. -/
theorem cacheAccess_load_two_hit {c d : CacheLevel} {a : Addr} (h : (c.access a).outcome = .hit) (upd : Bool) (p : Addr) :
    cacheAccess upd (.two c d) ⟨.load, a, p⟩ =
      { caches := .two (c.access a).level d, events := [⟨.L1, .HIT, p, a, c.cfg.lineUsed a⟩] } := by
  simp only [cacheAccess, loadAccess, loadLevel, eventOf]
  rw [if_neg (by rw [h]; decide), h]
  rfl

/-- A load on two levels that misses in L1 (41_cache_hierarchy.md R92): L2 is consulted with the same address. -/
theorem cacheAccess_load_two_miss {c d : CacheLevel} {a : Addr} (h : (c.access a).outcome = .miss) (upd : Bool) (p : Addr) :
    cacheAccess upd (.two c d) ⟨.load, a, p⟩ =
      { caches := .two (c.access a).level (d.access a).level
        events := [⟨.L1, .MISS, p, a, c.cfg.lineUsed a⟩,
          ⟨.L2, (d.access a).outcome.status, p, a, d.cfg.lineUsed a⟩] } := by
  simp only [cacheAccess, loadAccess, loadLevel, eventOf]
  rw [if_pos h, h]
  rfl

/-- A store on one level (41_cache_hierarchy.md R94). -/
theorem cacheAccess_store_one (upd : Bool) (c : CacheLevel) (a p : Addr) :
    cacheAccess upd (.one c) ⟨.store, a, p⟩ =
      { caches := .one (if upd then (c.access a).level else c)
        events := [⟨.L1, .STORE, p, a, c.cfg.lineUsed a⟩] } := rfl

/-- A store on two levels (41_cache_hierarchy.md R94): both are marked, L1 first. -/
theorem cacheAccess_store_two (upd : Bool) (c d : CacheLevel) (a p : Addr) :
    cacheAccess upd (.two c d) ⟨.store, a, p⟩ =
      { caches := .two (if upd then (c.access a).level else c) (if upd then (d.access a).level else d)
        events := [⟨.L1, .STORE, p, a, c.cfg.lineUsed a⟩, ⟨.L2, .STORE, p, a, d.cfg.lineUsed a⟩] } := rfl

@[simp] theorem storeLevel_cfg (upd : Bool) (n : LevelName) (c : CacheLevel) (r : Request) :
    (storeLevel upd n c r).1.cfg = c.cfg := by
  rcases storeLevel_cases upd n c r with h | h <;> rw [h]
  exact CacheLevel.access_cfg c r.addr

theorem storeLevel_ok {c : CacheLevel} (h : c.Ok) (upd : Bool) (n : LevelName) (r : Request) :
    (storeLevel upd n c r).1.Ok := by
  rcases storeLevel_cases upd n c r with e | e <;> rw [e]
  · exact h
  · exact CacheLevel.access_ok h _

/-- No request changes a configuration (10_state.md R17). -/
theorem cacheAccess_cfg (upd : Bool) (cs : Levels CacheLevel) (r : Request) :
    (cacheAccess upd cs r).caches.map CacheLevel.cfg = cs.map CacheLevel.cfg := by
  obtain ⟨k, a, p⟩ := r
  cases cs with
  | zero => simp [Levels.map]
  | one c =>
    cases k
    · simp [cacheAccess_load_one, Levels.map]
    · cases upd <;> simp [cacheAccess_store_one, Levels.map]
  | two c d =>
    cases k
    · cases h : (c.access a).outcome
      · rw [cacheAccess_load_two_hit h]; simp [Levels.map]
      · rw [cacheAccess_load_two_miss h]; simp [Levels.map]
    · cases upd <;> simp [cacheAccess_store_two, Levels.map]

/-- Every request leaves every level in order (40_cache_line_store.md R80). -/
theorem cacheAccess_ok {cs : Levels CacheLevel} (h : ∀ c ∈ cs.toList, c.Ok) (upd : Bool) (r : Request) :
    ∀ c ∈ (cacheAccess upd cs r).caches.toList, c.Ok := by
  obtain ⟨k, a, p⟩ := r
  cases cs with
  | zero => simpa using h
  | one c =>
    have hc := h c (by simp [Levels.toList, Levels.named])
    cases k
    · simpa [cacheAccess_load_one, Levels.toList, Levels.named] using CacheLevel.access_ok hc a
    · cases upd
      · simpa [cacheAccess_store_one, Levels.toList, Levels.named] using hc
      · simpa [cacheAccess_store_one, Levels.toList, Levels.named] using CacheLevel.access_ok hc a
  | two c d =>
    have hc := h c (by simp [Levels.toList, Levels.named])
    have hd := h d (by simp [Levels.toList, Levels.named])
    cases k
    · cases ho : (c.access a).outcome
      · rw [cacheAccess_load_two_hit ho]
        simpa [Levels.toList, Levels.named] using ⟨CacheLevel.access_ok hc a, hd⟩
      · rw [cacheAccess_load_two_miss ho]
        simpa [Levels.toList, Levels.named] using ⟨CacheLevel.access_ok hc a, CacheLevel.access_ok hd a⟩
    · cases upd
      · simpa [cacheAccess_store_two, Levels.toList, Levels.named] using ⟨hc, hd⟩
      · simpa [cacheAccess_store_two, Levels.toList, Levels.named] using
          ⟨CacheLevel.access_ok hc a, CacheLevel.access_ok hd a⟩

/-- Every event a request emits names a level and one of its lines (10_state.md R24). -/
theorem cacheAccess_events_ok {cs : Levels CacheLevel} (h : ∀ c ∈ cs.toList, c.Ok) (upd : Bool) (r : Request) :
    ∀ e ∈ (cacheAccess upd cs r).events, EventOk cs e := by
  obtain ⟨k, a, p⟩ := r
  have key : ∀ c ∈ cs.toList, c.cfg.lineUsed a < c.cfg.numLines :=
    fun c hc => LevelConfig.lineUsed_lt (h c hc).legal a
  cases cs with
  | zero => simp
  | one c =>
    have hc := key c (by simp [Levels.toList, Levels.named])
    cases k
    · simpa [cacheAccess_load_one, EventOk, Levels.at] using hc
    · simpa [cacheAccess_store_one, EventOk, Levels.at] using hc
  | two c d =>
    have hc := key c (by simp [Levels.toList, Levels.named])
    have hd := key d (by simp [Levels.toList, Levels.named])
    cases k
    · cases ho : (c.access a).outcome
      · rw [cacheAccess_load_two_hit ho]; simpa [EventOk, Levels.at] using hc
      · rw [cacheAccess_load_two_miss ho]; simpa [EventOk, Levels.at] using ⟨hc, hd⟩
    · simpa [cacheAccess_store_two, EventOk, Levels.at] using ⟨hc, hd⟩

/-- Which level a name stands for, and its line count, depend on the configuration only. -/
theorem eventOk_of_cfg {cs ds : Levels CacheLevel} (h : ds.map CacheLevel.cfg = cs.map CacheLevel.cfg) {e : AccessEvent}
    (he : EventOk cs e) : EventOk ds e := by
  obtain ⟨c, hc, hl⟩ := he
  have key : ∀ n, (ds.at n).map CacheLevel.cfg = (cs.at n).map CacheLevel.cfg := by
    have at_map : ∀ (xs : Levels CacheLevel) (n : LevelName), (xs.at n).map CacheLevel.cfg = (xs.map CacheLevel.cfg).at n := by
      intro xs n
      cases xs <;> cases n <;> rfl
    intro n
    rw [at_map, at_map, h]
  have hk := key e.level
  rw [hc] at hk
  obtain ⟨d, hd, hcfg⟩ := Option.map_eq_some_iff.1 hk
  exact ⟨d, hd, by rw [hcfg]; exact hl⟩

end Sys2Proof.Machine
end

