-- ==== Sys2Proof/Laws/Memory.lean ====
section
/-! SUPPORT. The laws of the memory list: a read after a write, the canonical form kept by every operation, and equal
readings being equal data (20_memory.md R31, R32). -/

namespace Sys2Proof.Machine

@[simp] theorem Memory.read_nil (a : Nat) : Memory.read [] a = unlistedWord := rfl

theorem Memory.read_cons (k : Nat) (v : Word) (m : Memory) (a : Nat) :
    Memory.read ((k, v) :: m) a = if k = a then v else Memory.read m a := rfl

/-- What the canonical form says of a non-empty list. -/
theorem Memory.wf_cons {k : Nat} {v : Word} {m : Memory} :
    Memory.wf ((k, v) :: m) = true ↔ k < 8192 ∧ v ≠ unlistedWord ∧ (∀ c ∈ m, k < c.1) ∧ Memory.wf m = true := by
  simp [Memory.wf, and_assoc]

/-- An address below every listed one reads as unlisted. -/
theorem Memory.read_below {m : Memory} {a : Nat} (h : ∀ c ∈ m, a < c.1) : Memory.read m a = unlistedWord := by
  induction m with
  | nil => rfl
  | cons c m ih =>
    obtain ⟨k, v⟩ := c
    have hk : a < k := h (k, v) (by simp)
    rw [Memory.read_cons, if_neg (by omega)]
    exact ih fun c hc => h c (by simp [hc])

/-- Reading a list with a pair put in front of it, where the pair's address lies below the list's. -/
theorem Memory.read_consCell {m : Memory} {a : Nat} (h : ∀ c ∈ m, a < c.1) (v : Word) (b : Nat) :
    Memory.read (Memory.consCell a v m) b = if b = a then v else Memory.read m b := by
  unfold Memory.consCell
  by_cases hv : v = unlistedWord
  · by_cases hb : b = a
    · simp [hv, hb, Memory.read_below h]
    · simp [hv, hb]
  · simp only [hv, if_false, Memory.read_cons]
    by_cases hb : b = a
    · simp [hb]
    · rw [if_neg (Ne.symm hb), if_neg hb]

theorem Memory.wf_consCell {m : Memory} {a : Nat} (ha : a < 8192) (h : ∀ c ∈ m, a < c.1) (hm : m.wf = true) (v : Word) :
    Memory.wf (Memory.consCell a v m) = true := by
  unfold Memory.consCell
  by_cases hv : v = unlistedWord
  · simpa [hv] using hm
  · rw [if_neg hv]
    exact Memory.wf_cons.2 ⟨ha, hv, h, hm⟩

/-- A write lists no address but the one written and those listed before. -/
theorem Memory.mem_write {m : Memory} {a : Nat} {v : Word} {c : Nat × Word} (h : c ∈ m.write a v) :
    c.1 = a ∨ c ∈ m := by
  have hcons : ∀ l : Memory, c ∈ Memory.consCell a v l → c.1 = a ∨ c ∈ l := by
    intro l hl
    unfold Memory.consCell at hl
    split at hl
    · exact .inr hl
    · rcases List.mem_cons.1 hl with rfl | hl
      · exact .inl rfl
      · exact .inr hl
  induction m with
  | nil => simpa using hcons [] h
  | cons d m ih =>
    obtain ⟨k, u⟩ := d
    unfold Memory.write at h
    split at h
    · exact hcons _ h
    · split at h
      · rcases hcons _ h with h | h
        · exact .inl h
        · exact .inr (List.mem_cons_of_mem _ h)
      · rcases List.mem_cons.1 h with rfl | h
        · exact .inr List.mem_cons_self
        · rcases ih h with h | h
          · exact .inl h
          · exact .inr (List.mem_cons_of_mem _ h)

/-- A read after a write: the word written at its address, the old word elsewhere. -/
theorem Memory.read_write {m : Memory} (hm : m.wf = true) (a : Nat) (v : Word) (b : Nat) :
    Memory.read (m.write a v) b = if b = a then v else Memory.read m b := by
  induction m with
  | nil => simpa [Memory.write] using Memory.read_consCell (m := []) (by simp) v b
  | cons d m ih =>
    obtain ⟨k, u⟩ := d
    obtain ⟨hk, hu, hlt, hwf⟩ := Memory.wf_cons.1 hm
    unfold Memory.write
    split
    · rename_i hak
      refine Memory.read_consCell (fun c hc => ?_) v b
      rcases List.mem_cons.1 hc with rfl | hc
      · exact hak
      · exact Nat.lt_trans hak (hlt c hc)
    · split
      · rename_i h1 h2
        subst h2
        rw [Memory.read_consCell hlt, Memory.read_cons]
        by_cases hb : b = a
        · simp [hb]
        · rw [if_neg hb, if_neg hb, if_neg (Ne.symm hb)]
      · rename_i h1 h2
        rw [Memory.read_cons, ih hwf, Memory.read_cons]
        by_cases hb : b = a
        · rw [if_pos hb, if_neg (by omega), if_pos hb]
        · rw [if_neg hb, if_neg hb]

/-- A write in range keeps the canonical form. -/
theorem Memory.wf_write {m : Memory} (hm : m.wf = true) {a : Nat} (ha : a < 8192) (v : Word) :
    (m.write a v).wf = true := by
  induction m with
  | nil => exact Memory.wf_consCell ha (by simp) rfl v
  | cons d m ih =>
    obtain ⟨k, u⟩ := d
    obtain ⟨hk, hu, hlt, hwf⟩ := Memory.wf_cons.1 hm
    unfold Memory.write
    split
    · rename_i hak
      refine Memory.wf_consCell ha (fun c hc => ?_) hm v
      rcases List.mem_cons.1 hc with rfl | hc
      · exact hak
      · exact Nat.lt_trans hak (hlt c hc)
    · split
      · rename_i h1 h2
        subst h2
        exact Memory.wf_consCell ha hlt hwf v
      · rename_i h1 h2
        refine Memory.wf_cons.2 ⟨hk, hu, fun c hc => ?_, ih hwf⟩
        rcases Memory.mem_write hc with h | h
        · omega
        · exact hlt c h

/-- Two canonical memories that read alike everywhere are the same list. -/
theorem Memory.ext_read {m n : Memory} (hm : m.wf = true) (hn : n.wf = true)
    (h : ∀ a, Memory.read m a = Memory.read n a) : m = n := by
  induction m generalizing n with
  | nil =>
    cases n with
    | nil => rfl
    | cons d n =>
      obtain ⟨k, v⟩ := d
      obtain ⟨-, hv, -, -⟩ := Memory.wf_cons.1 hn
      exact absurd (by simpa [Memory.read_cons] using (h k).symm) hv
  | cons c m ih =>
    obtain ⟨j, u⟩ := c
    obtain ⟨-, hu, hjlt, hmwf⟩ := Memory.wf_cons.1 hm
    cases n with
    | nil => exact absurd (by simpa [Memory.read_cons] using h j) hu
    | cons d n =>
      obtain ⟨k, v⟩ := d
      obtain ⟨-, hv, hklt, hnwf⟩ := Memory.wf_cons.1 hn
      have hjk : j = k := by
        rcases Nat.lt_trichotomy j k with hlt | heq | hlt
        · have := h j
          rw [Memory.read_cons, if_pos rfl, Memory.read_cons, if_neg (by omega),
            Memory.read_below fun c hc => Nat.lt_trans hlt (hklt c hc)] at this
          exact absurd this hu
        · exact heq
        · have := h k
          rw [Memory.read_cons, if_neg (by omega), Memory.read_below fun c hc => Nat.lt_trans hlt (hjlt c hc),
            Memory.read_cons, if_pos rfl] at this
          exact absurd this.symm hv
      subst hjk
      have huv : u = v := by simpa [Memory.read_cons] using h j
      subst huv
      congr 1
      refine ih hmwf hnwf fun a => ?_
      by_cases ha : j = a
      · subst ha
        rw [Memory.read_below hjlt, Memory.read_below hklt]
      · simpa [Memory.read_cons, ha] using h a

/-- `MemWrite` then `MemRead` (20_memory.md R31, R32). -/
theorem State.memRead_memWrite {s : State} (hm : s.mem.wf = true) (a b : Addr) (v : Word) :
    (s.memWrite a v).memRead b = if b = a then v else s.memRead b := by
  simp only [State.memRead, State.mem_memWrite, Memory.read_write hm, BitVec.toNat_inj]

/-- `MemWrite` keeps the canonical form. -/
theorem State.wf_memWrite {s : State} (hm : s.mem.wf = true) (a : Addr) (v : Word) :
    (s.memWrite a v).mem.wf = true := Memory.wf_write hm a.isLt v

/-- The preload keeps the canonical form, for an image whose addresses are in range. -/
theorem preload_wf {m : Memory} (hm : m.wf = true) {image : List (Nat × Word)} (hi : ∀ c ∈ image, c.1 < 8192) :
    (preload m image).wf = true := by
  induction image generalizing m with
  | nil => exact hm
  | cons c rest ih =>
    obtain ⟨a, v⟩ := c
    exact ih (Memory.wf_write hm (hi (a, v) (by simp)) v) fun c hc => hi c (by simp [hc])

end Sys2Proof.Machine
end

