-- ==== Sys2Proof/Laws/Exec.lean ====
section
/-! SUPPORT. What executing an instruction can do, said once: one equation per instruction, and an inversion of `exec`
and of `step` that every whole-machine proof cites instead of unfolding them. -/

namespace Sys2Proof.Machine

/-- The shapes a next state can have after an instruction (42_alu_register.md to 45_control_transfer.md): a register
write with `pc + 1`, a load, a store, a transfer, a halt, a link. -/
inductive Effect (i : Instr) (s t : State) : Prop where
  | write (r : Reg) (v : Word) (hd : i.dest = some r) (hp : i.isTransfer = false) (hl : i.isLoad = false)
      (hs : i.isStore = false) (h : t = s.writeAdvance r v)
  | load (rB rA : Reg) (imm : Word) (hi : i = .lw rB rA imm)
      (h : t = (s.request .load (s.ea rA imm)).writeAdvance rB (s.memRead (s.ea rA imm)))
  | store (rB rA : Reg) (imm : Word) (hi : i = .sw rB rA imm)
      (h : t = ((s.request .store (s.ea rA imm)).memWrite (s.ea rA imm) (s.x rB)).advance)
  | transfer (p : Addr) (hi : i.isTransfer = true) (hd : i.dest = none) (hj : ∀ k, i = .j k → k ≠ s.pc)
      (h : t = s.setPc p)
  | halt (hi : i = .j s.pc) (h : t = s.halt)
  | link (k : Addr) (hi : i = .jal k) (h : t = (s.setX 7 s.link).setPc k)

/-- Every instruction answers a next state, of one of the shapes of `Effect`. -/
theorem exec_effect (i : Instr) (s : State) : ∃ t, exec i s = .next t ∧ Effect i s t := by
  cases i with
  | add rD rA rB => exact ⟨_, rfl, .write rD _ rfl rfl rfl rfl rfl⟩
  | sub rD rA rB => exact ⟨_, rfl, .write rD _ rfl rfl rfl rfl rfl⟩
  | or rD rA rB => exact ⟨_, rfl, .write rD _ rfl rfl rfl rfl rfl⟩
  | and rD rA rB => exact ⟨_, rfl, .write rD _ rfl rfl rfl rfl rfl⟩
  | slt rD rA rB => exact ⟨_, rfl, .write rD _ rfl rfl rfl rfl rfl⟩
  | addi rB rA imm => exact ⟨_, rfl, .write rB _ rfl rfl rfl rfl rfl⟩
  | slti rB rA imm => exact ⟨_, rfl, .write rB _ rfl rfl rfl rfl rfl⟩
  | lw rB rA imm => exact ⟨_, rfl, .load rB rA imm rfl (by rw [State.memRead_request])⟩
  | sw rB rA imm => exact ⟨_, rfl, .store rB rA imm rfl rfl⟩
  | jr rA => exact ⟨_, rfl, .transfer _ rfl rfl (by simp) rfl⟩
  | jeq rA rB imm =>
    simp only [exec, execJeq]
    split
    · exact ⟨_, rfl, .transfer _ rfl rfl (by simp) rfl⟩
    · exact ⟨_, rfl, .transfer _ rfl rfl (by simp) rfl⟩
  | j k =>
    simp only [exec, execJ]
    split
    · rename_i h; exact ⟨_, rfl, .halt (by rw [h]) rfl⟩
    · rename_i h; exact ⟨_, rfl, .transfer _ rfl rfl (by simpa using h) rfl⟩
  | jal k => exact ⟨_, rfl, .link k rfl rfl⟩

/-- The inversion of `exec`. -/
theorem effect_of_exec {i : Instr} {s t : State} (h : exec i s = .next t) : Effect i s t := by
  obtain ⟨t', ht, he⟩ := exec_effect i s
  rw [h] at ht
  cases ht
  exact he

/-- The inversion of `step` (45_control_transfer.md R137): the machine was running, and it ran the decoded instruction
or took the one exception. -/
theorem step_cases {s t : State} (h : step s = .next t) :
    s.Running ∧ ((∃ i, s.fetchDecode = .legal i ∧ exec i s = .next t) ∨
      (∃ w, s.fetchDecode = .illegal w ∧ t = s.raiseDecodeError)) := by
  unfold step at h
  split at h
  · cases h
  · rename_i hs
    refine ⟨State.stopped_eq_none.1 hs, ?_⟩
    split at h
    · rename_i i hi; exact .inl ⟨i, hi, h⟩
    · rename_i w hw; cases h; exact .inr ⟨w, hw, rfl⟩

/-- A running machine's step, as the case split of its fetch. -/
theorem step_running {s : State} (h : s.Running) :
    step s = match s.fetchDecode with
      | .legal i => exec i s
      | .illegal _ => .next s.raiseDecodeError := by
  unfold step
  rw [State.stopped_eq_none.2 h]
  rfl

/-- A run of one step more, after a step that answers a next state. -/
theorem run_succ_next {s t : State} (h : step s = .next t) (n : Nat) :
    Host.Core.run Sys2Proof.core (n + 1) s = Host.Core.run Sys2Proof.core n t := by
  have h' : Sys2Proof.core.step s = .next t := h
  simp only [Host.Core.run, h']

/-- A run of one step more, where the step stops. -/
theorem run_succ_fault {s : State} {f : Fault} (h : step s = .fault f) (n : Nat) :
    Host.Core.run Sys2Proof.core (n + 1) s = .fault f := by
  have h' : Sys2Proof.core.step s = .fault f := h
  simp only [Host.Core.run, h']

/-- No step is refused: every instruction has its meaning. -/
theorem step_not_refused (s : State) (r : Refusal) : step s ≠ .refused r := by
  unfold step
  split
  · simp
  · split
    · rename_i i _
      obtain ⟨t, ht, -⟩ := exec_effect i s
      simp [ht]
    · simp [takeDecodeError]

/-- Memory stays canonical over every instruction. -/
theorem Effect.mem_wf {i : Instr} {s t : State} (he : Effect i s t) (h : s.mem.wf = true) : t.mem.wf = true := by
  cases he with
  | write r v hd hp hl hs e => rw [e]; simpa using h
  | load rB rA imm hi e => rw [e]; simpa using h
  | store rB rA imm hi e => rw [e]; simpa using Memory.wf_write h (s.ea rA imm).isLt (s.x rB)
  | transfer p hi hd hj e => rw [e]; simpa using h
  | halt hi e => rw [e]; simpa using h
  | link k hi e => rw [e]; simpa using h

end Sys2Proof.Machine
end

