-- ==== Sys2Proof/Laws/PerInstr.lean ====
section
/-! SUPPORT. Laws stated of every instruction as syntax, one lemma per constructor. Family `Layout`: under whatever
function codes, the opcode, register and immediate fields of an instruction's word stand where 30_encoding.md R51, R55
and R56 put them. -/

namespace Sys2Proof.Laws.Layout

/-- The fields of the instruction's word, by the format's bit positions (30_encoding.md R51). -/
def Statement : Instr → Prop
  | .add rD rA rB => ∀ f : FuncCodes, (encode f (.add rD rA rB)).toNat = rA.val * 1024 + rB.val * 128 + rD.val * 16 + f.add.toNat
  | .sub rD rA rB => ∀ f : FuncCodes, (encode f (.sub rD rA rB)).toNat = rA.val * 1024 + rB.val * 128 + rD.val * 16 + f.sub.toNat
  | .or rD rA rB => ∀ f : FuncCodes, (encode f (.or rD rA rB)).toNat = rA.val * 1024 + rB.val * 128 + rD.val * 16 + f.or.toNat
  | .and rD rA rB => ∀ f : FuncCodes, (encode f (.and rD rA rB)).toNat = rA.val * 1024 + rB.val * 128 + rD.val * 16 + f.and.toNat
  | .slt rD rA rB => ∀ f : FuncCodes, (encode f (.slt rD rA rB)).toNat = rA.val * 1024 + rB.val * 128 + rD.val * 16 + f.slt.toNat
  | .jr rA => ∀ f : FuncCodes, (encode f (.jr rA)).toNat = rA.val * 1024 + f.jr.toNat
  | .addi rB rA imm => ∀ f : FuncCodes, (encode f (.addi rB rA imm)).toNat = 0x2000 + rA.val * 1024 + rB.val * 128 + imm.toNat % 128
  | .j k => ∀ f : FuncCodes, (encode f (.j k)).toNat = 0x4000 + k.toNat
  | .jal k => ∀ f : FuncCodes, (encode f (.jal k)).toNat = 0x6000 + k.toNat
  | .lw rB rA imm => ∀ f : FuncCodes, (encode f (.lw rB rA imm)).toNat = 0x8000 + rA.val * 1024 + rB.val * 128 + imm.toNat % 128
  | .sw rB rA imm => ∀ f : FuncCodes, (encode f (.sw rB rA imm)).toNat = 0xA000 + rA.val * 1024 + rB.val * 128 + imm.toNat % 128
  | .jeq rA rB imm => ∀ f : FuncCodes, (encode f (.jeq rA rB imm)).toNat = 0xC000 + rA.val * 1024 + rB.val * 128 + imm.toNat % 128
  | .slti rB rA imm => ∀ f : FuncCodes, (encode f (.slti rB rA imm)).toNat = 0xE000 + rA.val * 1024 + rB.val * 128 + imm.toNat % 128

theorem add (rD rA rB : Reg) : Statement (.add rD rA rB) := fun f => packR_toNat rA rB rD f.add
theorem sub (rD rA rB : Reg) : Statement (.sub rD rA rB) := fun f => packR_toNat rA rB rD f.sub
theorem or (rD rA rB : Reg) : Statement (.or rD rA rB) := fun f => packR_toNat rA rB rD f.or
theorem and (rD rA rB : Reg) : Statement (.and rD rA rB) := fun f => packR_toNat rA rB rD f.and
theorem slt (rD rA rB : Reg) : Statement (.slt rD rA rB) := fun f => packR_toNat rA rB rD f.slt
theorem jr (rA : Reg) : Statement (.jr rA) := fun f => by
  have h := packR_toNat rA 0 0 f.jr
  simpa [encode] using h
theorem addi (rB rA : Reg) (imm : Word) : Statement (.addi rB rA imm) := fun _ => packI_toNat (by decide) rA rB imm
theorem j (k : Addr) : Statement (.j k) := fun _ => packJ_toNat (by decide) k
theorem jal (k : Addr) : Statement (.jal k) := fun _ => packJ_toNat (by decide) k
theorem lw (rB rA : Reg) (imm : Word) : Statement (.lw rB rA imm) := fun _ => packI_toNat (by decide) rA rB imm
theorem sw (rB rA : Reg) (imm : Word) : Statement (.sw rB rA imm) := fun _ => packI_toNat (by decide) rA rB imm
theorem jeq (rA rB : Reg) (imm : Word) : Statement (.jeq rA rB imm) := fun _ => packI_toNat (by decide) rA rB imm
theorem slti (rB rA : Reg) (imm : Word) : Statement (.slti rB rA imm) := fun _ => packI_toNat (by decide) rA rB imm

end Sys2Proof.Laws.Layout
end

