-- ==== Sys2Proof/Tests/Slice0.lean ====
section
/-! SUPPORT. The model's own tests. Expected results come from 95_test_vectors.md or from the rules' own examples, named
in each comment; a witness theorem shows a concrete case of a statement's hypotheses. -/

namespace Sys2Proof.Tests

open Sys2Proof.Machine

/-! Well-formedness: each check refuses an ill-formed term (30_encoding.md R53: 64 and 0xFFBF are no sign extension). -/

theorem test_wf_addi_refuses : Instr.wf (.addi 1 1 64#16) = false := by decide
theorem test_wf_slti_refuses : Instr.wf (.slti 1 1 0xFFBF#16) = false := by decide
theorem test_wf_lw_refuses : Instr.wf (.lw 1 1 0x8000#16) = false := by decide
theorem test_wf_sw_refuses : Instr.wf (.sw 1 1 64#16) = false := by decide
theorem test_wf_jeq_refuses : Instr.wf (.jeq 1 1 0xFFBF#16) = false := by decide
theorem test_wf_edges : Instr.wf (.addi 1 1 63#16) = true ∧ Instr.wf (.addi 1 1 0xFFC0#16) = true := by decide
theorem test_distinct_refuses :
    FuncCodes.distinct { decidedFunc with jr := 0#4 } = false ∧ decidedFunc.distinct = true := by decide

/-! Decoding: one word per constructor, written bit by bit from 30_encoding.md R51, R55, R56 (the words are those of
95_test_vectors.md V-DECODE). -/

theorem test_decode_add : decode decidedFunc 0b000_001_010_011_0000#16 = .legal (.add 3 1 2) := by decide
theorem test_decode_sub : decode decidedFunc 0b000_001_010_011_0001#16 = .legal (.sub 3 1 2) := by decide
theorem test_decode_or : decode decidedFunc 0b000_001_010_011_0010#16 = .legal (.or 3 1 2) := by decide
theorem test_decode_and : decode decidedFunc 0b000_001_010_011_0011#16 = .legal (.and 3 1 2) := by decide
theorem test_decode_slt : decode decidedFunc 0b000_001_010_011_0100#16 = .legal (.slt 3 1 2) := by decide
theorem test_decode_jr : decode decidedFunc 0b000_111_000_000_1000#16 = .legal (.jr 7) := by decide
theorem test_decode_jr_ignored : decode decidedFunc 0b000_001_101_010_1000#16 = .legal (.jr 1) := by decide
theorem test_decode_addi : decode decidedFunc 0b001_000_101_1000000#16 = .legal (.addi 5 0 0xFFC0#16) := by decide
theorem test_decode_j : decode decidedFunc 0b010_1111111111111#16 = .legal (.j 8191#13) := by decide
theorem test_decode_jal : decode decidedFunc 0b011_0000001100100#16 = .legal (.jal 100#13) := by decide
theorem test_decode_lw : decode decidedFunc 0b100_001_010_0000101#16 = .legal (.lw 2 1 5#16) := by decide
theorem test_decode_sw : decode decidedFunc 0b101_001_010_1111110#16 = .legal (.sw 2 1 0xFFFE#16) := by decide
theorem test_decode_jeq : decode decidedFunc 0b110_001_010_0000011#16 = .legal (.jeq 1 2 3#16) := by decide
theorem test_decode_slti : decode decidedFunc 0b111_001_010_1111111#16 = .legal (.slti 2 1 0xFFFF#16) := by decide
theorem test_decode_illegal :
    decode decidedFunc 0x0005#16 = .illegal 0x0005#16 ∧ decode decidedFunc 0x1FFF#16 = .illegal 0x1FFF#16 := by decide
theorem test_table_word : decodeTableWord 16 0x24FF = some (.addi 1 1 0xFFFF#16) ∧ decodeTableWord 16 5 = none := by
  decide
theorem test_encode : encode decidedFunc (.sw 2 1 0xFFFE#16) = 0xA57E#16 ∧ encode decidedFunc (.jr 7) = 0x1C08#16 := by
  decide

/-! One step on a small machine. -/

/-- A running machine with a configuration, a `pc`, values in `x[1]`, `x[2]` and `x[7]`, and one word at `pc`. -/
def machine (cfg : Levels LevelConfig) (pc : Addr) (v1 v2 v7 : Word) (w : Word) : State :=
  let s := State.resetWith decidedParams cfg
  let s := (((s.setX 1 v1).setX 2 v2).setX 7 v7).setPc pc
  s.placeWord w

/-- What is observed of the state after one step. -/
def after {α : Type} (s : State) (f : State → α) : Option α :=
  match step s with
  | .next t => some (f t)
  | .fault _ => none
  | .refused _ => none

/-- V-ALU, first row: the carry is lost. -/
theorem test_add : after (machine .zero 0 0xFFFF#16 2#16 0 0x0530#16) (fun t => (t.x 3, t.pc)) = some (1#16, 1#13) := by
  decide
/-- V-ALU: `add $0,$1,$1` is discarded; and `pc` wraps from 8191 (V-CT). -/
theorem test_add_x0 : after (machine .zero 8191#13 5#16 0 0 0x0480#16) (fun t => (t.x 0, t.pc)) = some (0#16, 0#13) := by
  decide
/-- V-ALU: 3 - 5. -/
theorem test_sub : after (machine .zero 0 3#16 5#16 0 0x0531#16) (fun t => t.x 3) = some 0xFFFE#16 := by decide
/-- V-ALU. -/
theorem test_or : after (machine .zero 0 0x00F0#16 0x0F0F#16 0 0x0532#16) (fun t => t.x 3) = some 0x0FFF#16 := by decide
/-- V-ALU. -/
theorem test_and : after (machine .zero 0 0x00F0#16 0x0FF0#16 0 0x0533#16) (fun t => t.x 3) = some 0x00F0#16 := by decide
/-- V-ALU: 1 < 65535 unsigned; a signed compare of the second would give 1. -/
theorem test_slt : after (machine .zero 0 1#16 0xFFFF#16 0 0x0534#16) (fun t => t.x 3) = some 1#16 := by decide
theorem test_slt_unsigned : after (machine .zero 0 0xFFFF#16 1#16 0 0x0534#16) (fun t => t.x 3) = some 0#16 := by decide
/-- V-IMM: 0 + (-1) wraps; destination equal to source. -/
theorem test_addi : after (machine .zero 0 0 0 0 0x24FF#16) (fun t => t.x 1) = some 0xFFFF#16 := by decide
/-- V-IMM: 5 < 0xFFFF, and 10 is not below 10. -/
theorem test_slti : after (machine .zero 0 5#16 0 0 0xE57F#16) (fun t => t.x 2) = some 1#16 := by decide
theorem test_slti_equal : after (machine .zero 0 10#16 0 0 0xE50A#16) (fun t => t.x 2) = some 0#16 := by decide
/-- V-LS, first row: the event, the loaded word, the tag. -/
theorem test_lw : after ((machine (.one ⟨4, 1, 2⟩) 7#13 0x10#16 0 0 0x8505#16).memWrite 21#13 0xBEEF#16)
    (fun t => (t.x 2, t.pc, t.trace, t.caches.toList.map CacheLevel.lines)) =
    some (0xBEEF#16, 8#13, [⟨.L1, .MISS, 7#13, 21#13, 0⟩], [[⟨true, [5]⟩, ⟨false, []⟩]]) := by decide
/-- V-LS: a load to `x[0]` still makes its event. -/
theorem test_lw_x0 : after ((machine (.one ⟨4, 1, 2⟩) 0 5#16 0 0 0x8400#16).memWrite 5#13 0x1234#16)
    (fun t => (t.x 0, t.pc, t.trace)) = some (0#16, 1#13, [⟨.L1, .MISS, 0#13, 5#13, 0⟩]) := by decide
/-- V-LS, third row. -/
theorem test_sw : after (machine (.one ⟨8, 2, 2⟩) 3#13 0x10#16 0x1234#16 0 0xA57E#16)
    (fun t => (t.memRead 14#13, t.pc, t.trace, t.caches.toList.map CacheLevel.lines)) =
    some (0x1234#16, 4#13, [⟨.L1, .STORE, 3#13, 14#13, 1⟩], [[⟨false, []⟩, ⟨true, [3]⟩]]) := by decide
/-- S8: the store overwrites its own word with zero, which leaves no listed cell. -/
theorem test_sw_itself : after (machine (.one ⟨4, 1, 2⟩) 0 0 0 0 0xA400#16) (fun t => (t.mem, t.pc, t.trace)) =
    some ([], 1#13, [⟨.L1, .STORE, 0#13, 0#13, 0⟩]) := by decide
/-- V-CT: only the low 13 bits are used. -/
theorem test_jr : after (machine .zero 9#13 0x2005#16 0 0 0x0408#16) (fun t => t.pc) = some 5#13 := by decide
theorem test_jr_high : after (machine .zero 9#13 0 0 0xFFFF#16 0x1C08#16) (fun t => t.pc) = some 8191#13 := by decide
/-- V-CT: taken backwards from 0, and all 16 bits compared. -/
theorem test_jeq : after (machine .zero 0 0 0 0 0xC07E#16) (fun t => t.pc) = some 8191#13 := by decide
theorem test_jeq_not_taken : after (machine .zero 10#13 0x8000#16 0 0 0xC503#16) (fun t => t.pc) = some 11#13 := by
  decide
/-- V-CT: `j 20` from 5, and the halt at 20. -/
theorem test_j : after (machine .zero 5#13 0 0 0 0x4014#16) (fun t => (t.pc, t.halted)) = some (20#13, false) := by decide
theorem test_j_halts : after (machine .zero 20#13 0 0 0 0x4014#16) (fun t => (t.pc, t.halted)) = some (20#13, true) := by
  decide
/-- V-CT: `jal` to itself is no halt; at 8191 the link is 8192 (D2). -/
theorem test_jal : after (machine .zero 100#13 0 0 0 0x6064#16) (fun t => (t.x 7, t.pc, t.halted)) =
    some (101#16, 100#13, false) := by decide
theorem test_jal_top : after (machine .zero 8191#13 0 0 0 0x6003#16) (fun t => (t.x 7, t.pc)) =
    some (0x2000#16, 3#13) := by decide
/-- V-CT, last row: the illegal word sets `fault` and nothing else. -/
theorem test_illegal : after (machine .zero 6#13 1#16 2#16 3#16 0x0005#16)
    (fun t => decide (t = { machine .zero 6#13 1#16 2#16 3#16 0x0005#16 with fault := .decodeError })) = some true := by
  decide
/-- 10_state.md R18: a stopped machine takes no step. -/
theorem test_stopped : after (machine .zero 6#13 0 0 0 0x0000#16).halt State.pc = none ∧
    after (machine .zero 6#13 0 0 0 0x0000#16).raiseDecodeError State.pc = none := by decide

/-! The cache controller driven alone (95_test_vectors.md V-LINE, V-HIER, V-DEC). -/

/-- V-LINE, two-way: from `[1, 2]`, a hit on 1, and a miss that evicts 1. -/
theorem test_two_way : (Line.access 2 1 ⟨true, [1, 2]⟩) = (.hit, ⟨true, [2, 1]⟩) ∧
    (Line.access 2 0 ⟨true, [1, 2]⟩) = (.miss, ⟨true, [2, 0]⟩) := by decide
/-- V-LINE, direct-mapped: an invalid line misses on tag 0; a different tag replaces. -/
theorem test_direct : (Line.access 1 0 ⟨false, []⟩) = (.miss, ⟨true, [0]⟩) ∧
    (Line.access 1 0 ⟨true, [1]⟩) = (.miss, ⟨true, [0]⟩) ∧ (Line.access 1 0 ⟨true, [0]⟩) = (.hit, ⟨true, [0]⟩) := by decide
/-- V-LINE, fully-associative `8,0,2`: from block 1 resident, address 0 misses on line 0. -/
theorem test_full : CacheLevel.access ⟨⟨8, 0, 2⟩, [⟨true, [1]⟩]⟩ 0#13 = ⟨.miss, 0, ⟨⟨8, 0, 2⟩, [⟨true, [0]⟩]⟩⟩ := by decide
/-- V-DEC, `24,2,3` at 8191 and `4,1,2` at 4095. -/
theorem test_decompose : ((⟨24, 2, 3⟩ : LevelConfig).blockID 8191#13, (⟨24, 2, 3⟩ : LevelConfig).lineOf 8191#13,
    (⟨24, 2, 3⟩ : LevelConfig).tagOf 8191#13) = (2730, 2, 682) ∧
    ((⟨4, 1, 2⟩ : LevelConfig).lineOf 4095#13, (⟨4, 1, 2⟩ : LevelConfig).tagOf 4095#13) = (1, 1023) := by decide

/-- The levels of V-HIER after its third row. -/
def hier3 : Levels CacheLevel :=
  .two ⟨⟨4, 1, 2⟩, [⟨true, [1]⟩, ⟨false, []⟩]⟩ ⟨⟨8, 2, 2⟩, [⟨true, [0, 1]⟩, ⟨false, []⟩]⟩

/-- V-HIER, row 4: an L1 miss that hits in L2. -/
theorem test_hier_load : cacheAccess true hier3 ⟨.load, 0#13, 3#13⟩ =
    ⟨.two ⟨⟨4, 1, 2⟩, [⟨true, [0]⟩, ⟨false, []⟩]⟩ ⟨⟨8, 2, 2⟩, [⟨true, [1, 0]⟩, ⟨false, []⟩]⟩,
      [⟨.L1, .MISS, 3#13, 0#13, 0⟩, ⟨.L2, .HIT, 3#13, 0#13, 0⟩]⟩ := by decide
/-- V-HIER, rows 4 and 5 and 6 (D8): the store evicts at both levels, and its block then hits in L1. -/
theorem test_hier_store : (serve true hier3 [⟨.load, 0#13, 3#13⟩, ⟨.store, 8#13, 4#13⟩, ⟨.load, 8#13, 5#13⟩]).events.drop 2 =
    [⟨.L1, .STORE, 4#13, 8#13, 0⟩, ⟨.L2, .STORE, 4#13, 8#13, 0⟩, ⟨.L1, .HIT, 5#13, 8#13, 0⟩] := by decide
/-- V-HIER, the note below the table: with `storeUpdatesCacheState` false row 6 misses at both levels. -/
theorem test_hier_store_no_update :
    (serve false hier3 [⟨.load, 0#13, 3#13⟩, ⟨.store, 8#13, 4#13⟩, ⟨.load, 8#13, 5#13⟩]).events.drop 4 =
    [⟨.L1, .MISS, 5#13, 8#13, 0⟩, ⟨.L2, .MISS, 5#13, 8#13, 0⟩] := by decide

/-! Configuration and boot (80_interfaces.md R186, 60_exceptions.md R152, R151). -/

/-- R186's two examples, with their line counts. -/
theorem test_configure : configure [4, 1, 2] = .ok (.one ⟨4, 1, 2⟩) ∧ configure [] = .ok .zero ∧
    (configReport (.one ⟨8, 2, 2⟩)).map ConfigReport.numLines = [2] := by decide
theorem test_configure_refuses : configure [4, 1] = .error (.wrongCount 2) ∧
    configure [8, 3, 2] = .error (.illegalLevel .L1) ∧ configure [4, 1, 2, 8, -1, 2] = .error (.illegalLevel .L2) := by
  decide
theorem test_boot : (match boot decidedParams [4, 1, 2] [(0, 0xA400#16), (1, 0x4001#16)] with
    | .ok r => some (r.2.mem, r.2.pc)
    | .error _ => none) = some ([(0, 0xA400#16), (1, 0x4001#16)], 0#13) := by decide
theorem test_boot_refuses : imageProblem 0 [(1, 5#16), (1, 6#16)] = some (.outOfSequence 1) ∧
    imageProblem 0 [(8192, 5#16)] = some (.addressOverflow 8192) := by decide

/-! Witnesses: for each statement with hypotheses, a concrete case of all of them. -/

theorem witness_DecoderFieldsAreTheBitSlices : (0x003F#16).toNat % 128 < 64 ∧ 64 ≤ (0x0040#16).toNat % 128 := by decide

theorem witness_DecodeAgreesWithPatternTable : (⟨"slti", 0xE000#16, 0xE000#16⟩ : PatternRow) ∈ patternTable := by decide

theorem witness_DecodeOfEncodeIsTheInstruction : decidedFunc.distinct = true ∧ (Instr.lw 7 7 63#16).wf = true ∧
    (Instr.lw 0 0 0xFFC0#16).wf = true := by decide

theorem witness_EncodeOfDecodeIsTheWord : decode decidedFunc 0x06A8#16 = .legal (.jr 1) ∧
    decode decidedFunc 0xFFFF#16 = .legal (.slti 7 7 0xFFFF#16) ∧ (∀ rA, Instr.slti 7 7 0xFFFF#16 ≠ .jr rA) := by decide

theorem witness_LegalLevelHasExactlyItsLines : (⟨8, 0, 2⟩ : LevelConfig).legal = true ∧
    (⟨4, 1, 2⟩ : LevelConfig).legal = true ∧ (⟨24, 2, 3⟩ : LevelConfig).legal = true := by decide

theorem witness_DecompositionIdentifiesTheBlock : (⟨24, 2, 3⟩ : LevelConfig).legal = true ∧
    (⟨24, 2, 3⟩ : LevelConfig).blockID 9#13 = (⟨24, 2, 3⟩ : LevelConfig).blockID 11#13 := by decide

theorem witness_PowerOfTwoDecompositionIsBitSlicing :
    (⟨64, 1, 8⟩ : LevelConfig).blockSize = 2 ^ 3 ∧ (⟨64, 1, 8⟩ : LevelConfig).numLines = 2 ^ 3 := by decide

/-- The fresh direct-mapped level `4,1,2`, and the same after one access: the miss and the hit clause. -/
theorem witness_DirectMappedAccess : (CacheLevel.fresh ⟨4, 1, 2⟩).Ok ∧ (CacheLevel.fresh ⟨4, 1, 2⟩).cfg.associativity = 1 ∧
    ((CacheLevel.fresh ⟨4, 1, 2⟩).access 0#13).level.Ok ∧
    (((CacheLevel.fresh ⟨4, 1, 2⟩).access 0#13).level.access 1#13).outcome = .hit :=
  ⟨CacheLevel.fresh_ok (by decide), by decide, CacheLevel.access_ok (CacheLevel.fresh_ok (by decide)) _, by decide⟩

theorem witness_FullyAssociativeAccess : (CacheLevel.fresh ⟨8, 0, 2⟩).Ok ∧
    (CacheLevel.fresh ⟨8, 0, 2⟩).cfg.associativity = 0 ∧
    (((CacheLevel.fresh ⟨8, 0, 2⟩).access 8191#13).level.access 8190#13).outcome = .hit :=
  ⟨CacheLevel.fresh_ok (by decide), by decide, by decide⟩

/-- The two-way level `8,2,2` with tags 0 and 1 in line 0. -/
def twoWay : CacheLevel := (((CacheLevel.fresh ⟨8, 2, 2⟩).access 0#13).level.access 4#13).level

theorem twoWay_ok : twoWay.Ok := CacheLevel.access_ok (CacheLevel.access_ok (CacheLevel.fresh_ok (by decide)) _) _

/-- Room and a miss (line 1), a full line and a miss (address 8), a hit in front (address 0), each clause in turn. -/
theorem witness_SetAssociativeAccess : twoWay.Ok ∧ 1 < twoWay.cfg.associativity ∧
    (twoWay.cfg.tagOf 2#13 ∉ (twoWay.line (twoWay.cfg.lineOf 2#13)).tags ∧
      (twoWay.line (twoWay.cfg.lineOf 2#13)).tags.length < twoWay.cfg.associativity) ∧
    (twoWay.cfg.tagOf 8#13 ∉ (twoWay.line (twoWay.cfg.lineOf 8#13)).tags ∧
      (twoWay.line (twoWay.cfg.lineOf 8#13)).tags = 0 :: [1] ∧ (0 :: [1]).length = twoWay.cfg.associativity) ∧
    (twoWay.line (twoWay.cfg.lineOf 0#13)).tags = [] ++ twoWay.cfg.tagOf 0#13 :: [1] :=
  ⟨twoWay_ok, by decide⟩

theorem witness_AccessedBlockIsResidentAndMostRecent : twoWay.Ok ∧
    twoWay.cfg.blockID 8191#13 = twoWay.cfg.blockID 8190#13 := ⟨twoWay_ok, by decide⟩

theorem witness_TwoWayEvictsTheLeastRecentlyUsed : Line.blank.tags = [] ∧ (0 : Nat) ≠ 1 ∧ (0 : Nat) ≠ 8191 ∧
    (1 : Nat) ≠ 8191 := by decide

/-- A valid line with one tag, in the class of one tag a line. -/
theorem single_ok : Line.Ok 1 ⟨true, [3]⟩ :=
  { short := by decide, nodup := by decide, valid := by decide, bounded := by decide }

theorem witness_OneAlgorithmServesEveryClass : Line.Ok 1 ⟨true, [3]⟩ ∧
    (CacheLevel.fresh ⟨8, 0, 2⟩).cfg.associativity = 0 ∧ 1 ≤ (CacheLevel.fresh ⟨8, 0, 2⟩).cfg.blockSize ∧
    (CacheLevel.fresh ⟨2, 1, 2⟩).cfg =
      { size := (CacheLevel.fresh ⟨8, 0, 2⟩).cfg.blockSize, associativity := 1,
        blockSize := (CacheLevel.fresh ⟨8, 0, 2⟩).cfg.blockSize } ∧
    (CacheLevel.fresh ⟨2, 1, 2⟩).lines = (CacheLevel.fresh ⟨8, 0, 2⟩).lines := ⟨single_ok, by decide⟩

theorem witness_LineHoldsTheMostRecentTags : Line.Ok 2 ⟨true, [0, 1]⟩ :=
  { short := by decide, nodup := by decide, valid := by decide, bounded := by decide }

/-- A two-level machine with a `lw` of address 0 at `pc` 3, in the levels of V-HIER after its third row (an L1 miss), and
the same with address 4 (an L1 hit). -/
def hierMachine (w : Word) : State := { machine .zero 3#13 0 0 0 w with caches := hier3 }

theorem witness_LoadConsultsL2ExactlyOnL1Miss :
    (∃ c d, (hierMachine 0x8000#16).caches = .two c d ∧ (c.access ((hierMachine 0x8000#16).ea 0 0#16)).outcome = .miss) ∧
    (∃ c d, (hierMachine 0x8004#16).caches = .two c d ∧ (c.access ((hierMachine 0x8004#16).ea 0 4#16)).outcome = .hit) ∧
    (∃ c, (machine (.one ⟨4, 1, 2⟩) 0 0 0 0 0#16).caches = .one c) ∧ State.reset.caches = .zero :=
  ⟨⟨_, _, rfl, by decide⟩, ⟨_, _, rfl, by decide⟩, ⟨_, rfl⟩, rfl⟩

/-- The parameters of the other reading of decision D8. -/
def noStoreUpdate : Params := { decidedParams with storeUpdatesCacheState := false }

/-- One and two levels, each with the parameter true and false, and no cache. -/
theorem witness_StoreMarksEveryLevel :
    (∃ c, (State.resetWith decidedParams (.one ⟨4, 1, 2⟩)).caches = .one c) ∧
    (∃ c d, (hierMachine 0xA000#16).caches = .two c d) ∧
    (State.resetWith decidedParams (.one ⟨4, 1, 2⟩)).params.storeUpdatesCacheState = true ∧
    (hierMachine 0xA000#16).params.storeUpdatesCacheState = true ∧
    (∃ c, (State.resetWith noStoreUpdate (.one ⟨4, 1, 2⟩)).caches = .one c) ∧
    (∃ c d, ({ hierMachine 0xA000#16 with params := noStoreUpdate } : State).caches = .two c d) ∧
    noStoreUpdate.storeUpdatesCacheState = false ∧
    State.reset.caches = .zero :=
  ⟨⟨_, rfl⟩, ⟨_, _, rfl⟩, rfl, rfl, ⟨_, rfl⟩, ⟨_, _, rfl⟩, rfl, rfl⟩

/-- Runs of one step on two levels (the third law) and on one (the fourth). -/
theorem witness_EventCountsMatchExecutedInstructions :
    (∃ t, Host.Core.run Sys2Proof.core 1 (hierMachine 0x8000#16) = .next t) ∧ (hierMachine 0x8000#16).caches.count = 2 ∧
    (∃ t, Host.Core.run Sys2Proof.core 1 (machine (.one ⟨4, 1, 2⟩) 0 0 0 0 0x8000#16) = .next t) ∧
    (machine (.one ⟨4, 1, 2⟩) 0 0 0 0 0x8000#16).caches.count < 2 :=
  ⟨⟨_, rfl⟩, by decide, ⟨_, rfl⟩, by decide⟩

theorem witness_CacheNeverChangesTheProgram :
    SameCore (machine .zero 3#13 0 0 0 0x8000#16) (hierMachine 0x8000#16) :=
  ⟨rfl, rfl, rfl, rfl, rfl, rfl, rfl⟩

/-- The hypothesis "the step answers a next state" of the whole-machine statements, for a load, a store, a register
instruction, the halt and an illegal word, with what the clauses ask of each. -/
theorem witness_OnlyLoadsAndStoresEmitEvents :
    (∃ t, step (hierMachine 0x8000#16) = .next t) ∧ (hierMachine 0x8000#16).current = some (.lw 0 0 0#16) ∧
    (∃ t, step (hierMachine 0xA000#16) = .next t) ∧ (hierMachine 0xA000#16).current = some (.sw 0 0 0#16) ∧
    (∃ t, step (hierMachine 0x0530#16) = .next t) ∧ (hierMachine 0x0530#16).current = some (.add 3 1 2) :=
  ⟨⟨_, rfl⟩, by decide, ⟨_, rfl⟩, by decide, ⟨_, rfl⟩, by decide⟩

theorem witness_register_instructions : decidedFunc.distinct = true ∧ (7 : Reg) ≠ 0 := by decide

theorem witness_SwStoresTheRegisterAndMakesOneRequest : (hierMachine 0xA000#16).mem.wf = true ∧
    (hierMachine 0xA000#16).ea 0 (sext16 127#7) = 8191#13 := by decide

theorem witness_JeqBranchesWhenEqual :
    ((machine .zero 0 7#16 7#16 0 0#16).x 1).toNat = ((machine .zero 0 7#16 7#16 0 0#16).x 2).toNat ∧
    ((machine .zero 0 7#16 8#16 0 0#16).x 1).toNat ≠ ((machine .zero 0 7#16 8#16 0 0#16).x 2).toNat := by decide

theorem witness_JJumpsOrHaltsAtItself : (8191#13 : Addr) = (machine .zero 8191#13 0 0 0 0#16).pc ∧
    (8190#13 : Addr) ≠ (machine .zero 8191#13 0 0 0 0#16).pc := by decide

theorem witness_JalLinksAndJumps : State.reset.params.linkWraps13 = false ∧
    (State.resetWith { decidedParams with linkWraps13 := true } .zero).params.linkWraps13 = true := by decide

theorem witness_StepRunsTheDecodedInstruction :
    (machine .zero 6#13 0 0 0 0x0530#16).halted = false ∧ (machine .zero 6#13 0 0 0 0x0530#16).fault = .none ∧
    decode (machine .zero 6#13 0 0 0 0x0530#16).params.func
      ((machine .zero 6#13 0 0 0 0x0530#16).memRead (machine .zero 6#13 0 0 0 0x0530#16).pc) = .legal (.add 3 1 2) ∧
    (machine .zero 6#13 0 0 0 0x0530#16).halt.halted = true ∧
    (machine .zero 6#13 0 0 0 0x0530#16).raiseDecodeError.fault ≠ .none := by decide

theorem witness_DecodeErrorIsPreciseAndTerminal : (machine .zero 6#13 0 0 0 0x1FFF#16).Running ∧
    decode (machine .zero 6#13 0 0 0 0x1FFF#16).params.func
      ((machine .zero 6#13 0 0 0 0x1FFF#16).memRead (machine .zero 6#13 0 0 0 0x1FFF#16).pc) = .illegal 0x1FFF#16 :=
  ⟨⟨rfl, rfl⟩, by decide⟩

theorem witness_NothingElseFaults :
    (∃ t, step (machine .zero 6#13 0 0 0 0x0005#16) = .next t) ∧
    (machine .zero 6#13 0 0 0 0x0005#16).fetchDecode = .illegal 0x0005#16 := ⟨⟨_, rfl⟩, by decide⟩

theorem witness_OnlyASelfJumpHalts :
    (∃ t, step (machine .zero 4#13 0 0 0 0x4004#16) = .next t) ∧
    (machine .zero 4#13 0 0 0 0x4004#16).fetchDecode = .legal (.j 4#13) := ⟨⟨_, rfl⟩, by decide⟩

theorem witness_OnlyTheDestinationRegisterChanges :
    ∃ t, step (machine .zero 0 1#16 2#16 0 0x0530#16) = .next t ∧ t.x 3 ≠ (machine .zero 0 1#16 2#16 0 0x0530#16).x 3 :=
  ⟨_, rfl, by decide⟩

theorem witness_OnlyAStoreChangesMemory :
    (machine .zero 3#13 0x10#16 0x1234#16 0 0xA57E#16).mem.wf = true ∧
    ∃ t, step (machine .zero 3#13 0x10#16 0x1234#16 0 0xA57E#16) = .next t ∧
      t.memRead 14#13 ≠ (machine .zero 3#13 0x10#16 0x1234#16 0 0xA57E#16).memRead 14#13 := ⟨by decide, _, rfl, by decide⟩

theorem witness_PcAdvancesExceptOnTransfers :
    (∃ t, step (machine .zero 8191#13 0 0 0 0x0530#16) = .next t) ∧
    (machine .zero 8191#13 0 0 0 0x0530#16).fetchDecode = .legal (.add 3 1 2) ∧
    (machine .zero 4#13 0 0 0 0x4004#16).fetchDecode = .legal (.j (machine .zero 4#13 0 0 0 0x4004#16).pc) :=
  ⟨⟨_, rfl⟩, by decide⟩

theorem witness_StepKeepsTheConfiguration : ∃ t, step (hierMachine 0xA000#16) = .next t := ⟨_, rfl⟩

theorem witness_ValidLinesStayValid :
    ∃ t c d, step (hierMachine 0xA000#16) = .next t ∧ (hierMachine 0xA000#16).caches.at .L2 = some c ∧
      t.caches.at .L2 = some d ∧ (c.line 0).valid = true := ⟨_, _, _, rfl, rfl, rfl, by decide⟩

/-- `sw $2,$1,0` at address 3 with `x[1]` = 4: it overwrites the next instruction with `add $3,$1,$2`. -/
theorem witness_StoredWordIsFetchedNext :
    (machine .zero 3#13 4#16 0x0530#16 0 0xA500#16).mem.wf = true ∧
    (machine .zero 3#13 4#16 0x0530#16 0 0xA500#16).halted = false ∧
    (machine .zero 3#13 4#16 0x0530#16 0 0xA500#16).fault = .none ∧
    (machine .zero 3#13 4#16 0x0530#16 0 0xA500#16).fetchDecode = .legal (.sw 2 1 0#16) ∧
    (machine .zero 3#13 4#16 0x0530#16 0 0xA500#16).ea 1 0#16 = (machine .zero 3#13 4#16 0x0530#16 0 0xA500#16).pc + 1 ∧
    decode decidedFunc ((machine .zero 3#13 4#16 0x0530#16 0 0xA500#16).x 2) = .legal (.add 3 1 2) := by decide

theorem witness_LoadReturnsTheLatestStore : (machine .zero 0 8191#16 0 0 0#16).mem.wf = true ∧
    (machine .zero 0 8191#16 0 0 0#16).ea 1 1#16 = (machine .zero 0 8191#16 0 0 0#16).ea 0 0#16 := by decide

/-- The state after reset meets the invariant, and takes a step. -/
theorem reset_inv : State.reset.Inv :=
  { mem := by decide, x0 := by decide, caches := by simp [State.reset, State.resetWith, Levels.map, Levels.toList, Levels.named],
    events := by simp [State.reset, State.resetWith], ends := by decide, func := by decide }

theorem witness_StepKeepsTheInvariant : State.reset.Inv ∧ ∃ t, step State.reset = .next t := ⟨reset_inv, _, rfl⟩

theorem witness_ResetSetsEveryField : ∃ u : State, (hierMachine 0#16).doReset = u.doReset ∧
    decidedParams = u.params ∧ (.two ⟨4, 1, 2⟩ ⟨8, 2, 2⟩ : Levels LevelConfig) = u.caches.map CacheLevel.cfg :=
  ⟨hierMachine 0#16, rfl, rfl, rfl⟩

theorem witness_ResetMeetsTheInvariant : decidedParams.func.distinct = true ∧
    ∀ c ∈ (Levels.two ⟨4, 1, 2⟩ ⟨8, 2, 2⟩ : Levels LevelConfig).toList, c.legal = true := by decide

theorem witness_ConfigureAcceptsExactlyLegalLists : ([1, 2] : List Int).length ≠ 0 ∧ ([1, 2] : List Int).length ≠ 3 ∧
    ([1, 2] : List Int).length ≠ 6 := by decide

theorem witness_BootLoadsTheImage : decidedParams.func.distinct = true ∧ ∃ reports s,
    boot decidedParams [4, 1, 2] [(0, 0xA400#16), (8191, 0x4001#16)] = .ok (reports, s) := ⟨by decide, _, _, rfl⟩

end Sys2Proof.Tests
end

