-- ==== Sys2Proof/Proofs/LineStoreAccess.lean ====
section
/-! PROOFS. What one access does to a level, class by class (40_cache_line_store.md sections 2, 3 and 5): the line and tag
a direct-mapped or set-associative level uses, one rule per case of each class algorithm, the frame of the other lines,
and from them the two statements on `LineAccess`. -/

namespace Sys2Proof

/-- Outside the fully-associative class the line used is the computed line (40_cache_line_store.md R72). -/
theorem LevelConfig.lineUsed_of_ways {c : LevelConfig} (h : 1 ≤ c.associativity) (a : Addr) :
    c.lineUsed a = c.lineOf a :=
  if_neg (Nat.ne_of_gt h)

/-- Outside the fully-associative class the tag compared is the computed tag (40_cache_line_store.md R72). -/
theorem LevelConfig.tagUsed_of_ways {c : LevelConfig} (h : 1 ≤ c.associativity) (a : Addr) :
    c.tagUsed a = c.tagOf a :=
  if_neg (Nat.ne_of_gt h)

namespace Machine

/-! The single-tag algorithm (40_cache_line_store.md R73). -/

theorem Line.access_of_le_one {n : Nat} (h : n ≤ 1) (tag : Nat) (l : Line) : l.access n tag = l.accessSingle tag :=
  if_pos h

theorem Line.accessSingle_hit_iff (tag : Nat) (l : Line) :
    (l.accessSingle tag).1 = .hit ↔ l.valid = true ∧ l.tags = [tag] := by
  rcases l.accessSingle_cases tag with ⟨he, hres⟩ | ⟨he, hres⟩
  · simp [he, hres]
  · simp [he, hres]

/-- Both outcomes end in the same line: a miss writes it, and on a hit it was this line already. -/
theorem Line.accessSingle_line (tag : Nat) (l : Line) :
    (l.accessSingle tag).2 = { valid := true, tags := [tag] } := by
  rcases l.accessSingle_cases tag with ⟨he, hv, ht⟩ | ⟨he, -⟩
  · rw [he, ← hv, ← ht]
  · rw [he]

/-! The set-associative algorithm (40_cache_line_store.md R75, R76). -/

theorem Line.access_of_one_lt {n : Nat} (h : 1 < n) (tag : Nat) (l : Line) : l.access n tag = l.accessLru n tag :=
  if_neg (Nat.not_le_of_gt h)

theorem Line.accessLru_hit_iff (n tag : Nat) (l : Line) : (l.accessLru n tag).1 = .hit ↔ tag ∈ l.tags := by
  rcases l.accessLru_cases n tag with ⟨hm, he⟩ | ⟨hm, he⟩
  · simp [he, hm]
  · simp [he, hm]

theorem Line.accessLru_line_of_mem {tag : Nat} {l : Line} (h : tag ∈ l.tags) (n : Nat) :
    (l.accessLru n tag).2 = { l with tags := l.tags.erase tag ++ [tag] } := by
  rcases l.accessLru_cases n tag with ⟨-, he⟩ | ⟨hm, -⟩
  · rw [he]
  · exact absurd h hm

theorem Line.accessLru_line_of_not_mem {tag : Nat} {l : Line} (h : tag ∉ l.tags) (n : Nat) :
    (l.accessLru n tag).2 = { valid := true, tags := evict n l.tags ++ [tag] } := by
  rcases l.accessLru_cases n tag with ⟨hm, -⟩ | ⟨-, he⟩
  · exact absurd hm h
  · rw [he]

theorem evict_of_room {n : Nat} {tags : List Nat} (h : tags.length < n) : evict n tags = tags :=
  if_neg (Nat.ne_of_lt h)

theorem evict_of_full {n victim : Nat} {rest : List Nat} (h : (victim :: rest).length = n) :
    evict n (victim :: rest) = rest :=
  if_pos h

/-- In a list without repetition, erasing an element leaves what stands before and after it. -/
theorem erase_middle_of_nodup {t : Nat} {before after : List Nat} (h : (before ++ t :: after).Nodup) :
    (before ++ t :: after).erase t = before ++ after := by
  have hnot : t ∉ before := fun hm => (List.nodup_cons.1 (List.nodup_middle.1 h)).1 (List.mem_append_left after hm)
  rw [List.erase_append_right _ hnot, List.erase_cons_head]

/-- R75: a hit moves the tag to the back, the others keep their order, and `valid` is not written. -/
theorem Line.accessLru_line_of_hit {n tag : Nat} {l : Line} (hl : Line.Ok n l) {before after : List Nat}
    (h : l.tags = before ++ tag :: after) :
    (l.accessLru n tag).2 = { valid := l.valid, tags := before ++ after ++ [tag] } := by
  have hm : tag ∈ l.tags := h ▸ List.mem_append_right before List.mem_cons_self
  have herase : l.tags.erase tag = before ++ after := by
    rw [h]
    exact erase_middle_of_nodup (h ▸ hl.nodup)
  rw [Line.accessLru_line_of_mem hm, herase]

/-- R76, a line with a free way: the tag is appended and nothing is evicted. -/
theorem Line.accessLru_line_of_room {n tag : Nat} {l : Line} (hm : tag ∉ l.tags) (hroom : l.tags.length < n) :
    (l.accessLru n tag).2 = { valid := true, tags := l.tags ++ [tag] } := by
  rw [Line.accessLru_line_of_not_mem hm, evict_of_room hroom]

/-- R76, a full line: the front tag, the least recently used one, is evicted. -/
theorem Line.accessLru_line_of_full {n tag victim : Nat} {rest : List Nat} {l : Line} (hm : tag ∉ l.tags)
    (h : l.tags = victim :: rest) (hfull : (victim :: rest).length = n) :
    (l.accessLru n tag).2 = { valid := true, tags := rest ++ [tag] } := by
  rw [Line.accessLru_line_of_not_mem hm, h, evict_of_full hfull]

/-! One access to an orderly level outside the fully-associative class (40_cache_line_store.md R72). -/

/-- The outcome is that of the class algorithm on the computed line with the computed tag. -/
theorem CacheLevel.access_outcome_of_ways {c : CacheLevel} (h : 1 ≤ c.cfg.associativity) (a : Addr) :
    (c.access a).outcome = ((c.line (c.cfg.lineOf a)).access c.cfg.associativity (c.cfg.tagOf a)).1 := by
  rw [CacheLevel.access_outcome, LevelConfig.lineUsed_of_ways h, LevelConfig.tagUsed_of_ways h]

/-- The computed line afterwards is what the class algorithm makes of it. -/
theorem CacheLevel.line_access_of_ways {c : CacheLevel} (hok : c.Ok) (h : 1 ≤ c.cfg.associativity) (a : Addr) :
    (c.access a).level.line (c.cfg.lineOf a) =
      ((c.line (c.cfg.lineOf a)).access c.cfg.associativity (c.cfg.tagOf a)).2 := by
  rw [CacheLevel.line_access (CacheLevel.lineUsed_lt hok a), LevelConfig.lineUsed_of_ways h,
    LevelConfig.tagUsed_of_ways h, if_pos rfl]

/-- The frame of an access: every line but the computed one is as before. -/
theorem CacheLevel.line_access_of_ne {c : CacheLevel} (hok : c.Ok) (h : 1 ≤ c.cfg.associativity) {a : Addr} {j : Nat}
    (hj : j ≠ c.cfg.lineOf a) : (c.access a).level.line j = c.line j := by
  rw [CacheLevel.line_access (CacheLevel.lineUsed_lt hok a), LevelConfig.lineUsed_of_ways h, if_neg hj]

/-- Settles O10: the level runs the single-tag algorithm on the computed line with the computed tag. -/
theorem directMappedAccess : Obligations.DirectMappedAccess := by
  unfold Obligations.DirectMappedAccess
  intro c a hok hdirect
  have hone : 1 ≤ c.cfg.associativity := hdirect.ge
  rw [CacheLevel.access_outcome_of_ways hone, CacheLevel.line_access_of_ways hok hone,
    Line.access_of_le_one hdirect.le]
  exact ⟨LevelConfig.lineUsed_of_ways hone a, Line.accessSingle_hit_iff _ _, Line.accessSingle_line _ _,
    fun _ hj => CacheLevel.line_access_of_ne hok hone hj, CacheLevel.access_cfg c a⟩

/-- Settles O12: the level runs the set-associative algorithm on the computed line with the computed tag. That the line
holds no tag twice (R80 (b)) is what the hit case needs of an orderly level. -/
theorem setAssociativeAccess : Obligations.SetAssociativeAccess := by
  unfold Obligations.SetAssociativeAccess
  intro c a hok hways
  have hone : 1 ≤ c.cfg.associativity := hways.le
  rw [CacheLevel.access_outcome_of_ways hone, CacheLevel.line_access_of_ways hok hone, Line.access_of_one_lt hways]
  refine ⟨LevelConfig.lineUsed_of_ways hone a, Line.accessLru_hit_iff _ _ _, fun before after hsplit => ?hit,
    fun hmiss hroom => ?room, fun victim rest hmiss htags hfull => ?full, fun j hj => ?frame⟩
  case hit => exact Line.accessLru_line_of_hit (CacheLevel.line_ok hok _) hsplit
  case room => exact Line.accessLru_line_of_room hmiss hroom
  case full => exact Line.accessLru_line_of_full hmiss htags hfull
  case frame => exact CacheLevel.line_access_of_ne hok hone hj

end Machine

end Sys2Proof
end

