-- ==== Sys2Proof/Proofs/HierarchyLoad.lean ====
section
/-! PROOFS. The load as the Cache Hierarchy sees it (41_cache_hierarchy.md R92, R93): `lw` makes one request, and the
laws of `cacheAccess` say for each configuration and each L1 verdict what that request does. -/

namespace Sys2Proof.Machine

/-- `lw` completes, and its whole effect on levels and trace is that of one load request for the effective address,
charged to the instruction's own `pc` (44_load_store.md R120, R122). -/
theorem exec_lw_makes_one_load_request (s : State) (rB rA : Reg) (imm : Word) :
    ∃ t, exec (.lw rB rA imm) s = .next t ∧
      t.caches = (cacheAccess s.params.storeUpdatesCacheState s.caches ⟨.load, s.ea rA imm, s.pc⟩).caches ∧
      t.trace = s.trace ++
        (cacheAccess s.params.storeUpdatesCacheState s.caches ⟨.load, s.ea rA imm, s.pc⟩).events :=
  ⟨_, rfl, by rw [State.caches_writeAdvance, State.caches_request],
    by rw [State.trace_writeAdvance, State.trace_request]⟩

/-- Settles O17, by cases on the configured levels and, with two, on the verdict of L1. -/
theorem loadConsultsL2ExactlyOnL1Miss : Obligations.LoadConsultsL2ExactlyOnL1Miss := by
  unfold Obligations.LoadConsultsL2ExactlyOnL1Miss
  intro s rB rA imm
  obtain ⟨t, hexec, hcaches, htrace⟩ := exec_lw_makes_one_load_request s rB rA imm
  refine ⟨t, hexec, fun c hc => ?one, fun c d hc hhit => ?hit, fun c d hc hmiss => ?miss, fun hc => ?zero⟩ <;>
    rw [hcaches, htrace, hc]
  case one =>
    rw [cacheAccess_load_one, CacheLevel.access_line]
    exact ⟨rfl, rfl⟩
  case hit =>
    rw [cacheAccess_load_two_hit hhit, CacheLevel.access_line]
    exact ⟨rfl, rfl⟩
  case miss =>
    rw [cacheAccess_load_two_miss hmiss, CacheLevel.access_line, CacheLevel.access_line]
    exact ⟨rfl, rfl⟩
  case zero =>
    rw [cacheAccess_zero]
    exact ⟨rfl, List.append_nil s.trace⟩

end Sys2Proof.Machine
end

