-- ==== Sys2Proof/Proofs/DecodeRegister.lean ====
section
/-! PROOFS. The decoder on a format R word (30_encoding.md R51, R56, R58): the fields come back as they were packed, and
under six different function codes each three-register ALU code selects its own instruction. -/

namespace Sys2Proof

/-! The fields of a format R word. -/

@[simp] theorem op_packR (a b d : Reg) (k : BitVec 4) : (fieldsOf (packR a b d k)).op = 0b000#3 := by
  have hk := k.isLt
  rw [op_eq_iff, packR_toNat, BitVec.toNat_ofNat]
  omega

@[simp] theorem rA_packR (a b d : Reg) (k : BitVec 4) : (fieldsOf (packR a b d k)).rA = a := by
  have hk := k.isLt
  exact regField_eq (by rw [packR_toNat]; omega)

@[simp] theorem rB_packR (a b d : Reg) (k : BitVec 4) : (fieldsOf (packR a b d k)).rB = b := by
  have hk := k.isLt
  exact regField_eq (by rw [packR_toNat]; omega)

@[simp] theorem rD_packR (a b d : Reg) (k : BitVec 4) : (fieldsOf (packR a b d k)).rD = d := by
  have hk := k.isLt
  exact regField_eq (by rw [packR_toNat]; omega)

@[simp] theorem func_packR (a b d : Reg) (k : BitVec 4) : (fieldsOf (packR a b d k)).func = k := by
  have hk := k.isLt
  rw [func_eq_iff, packR_toNat]
  omega

/-- A format R word is decoded by its function code. -/
theorem decode_packR (f : FuncCodes) (a b d : Reg) (k : BitVec 4) :
    decode f (packR a b d k) = decodeR f (packR a b d k) (fieldsOf (packR a b d k)) :=
  if_pos (op_packR a b d k)

/-- Under different function codes, each ALU code differs from those `decodeR` tests before it. -/
theorem FuncCodes.ne_earlier_of_distinct {f : FuncCodes} (h : f.distinct = true) :
    f.sub ≠ f.add ∧ (f.or ≠ f.add ∧ f.or ≠ f.sub) ∧ (f.and ≠ f.add ∧ f.and ≠ f.sub ∧ f.and ≠ f.or) ∧
      (f.slt ≠ f.add ∧ f.slt ≠ f.sub ∧ f.slt ≠ f.or ∧ f.slt ≠ f.and) := by
  simp only [distinct_iff, ne_eq, BitVec.toNat_inj] at h
  obtain ⟨⟨hadd_sub, hadd_or, hadd_and, hadd_slt, -⟩, ⟨hsub_or, hsub_and, hsub_slt, -⟩, ⟨hor_and, hor_slt, -⟩,
    ⟨hand_slt, -⟩, -⟩ := h
  exact ⟨Ne.symm hadd_sub, ⟨Ne.symm hadd_or, Ne.symm hsub_or⟩, ⟨Ne.symm hadd_and, Ne.symm hsub_and, Ne.symm hor_and⟩,
    ⟨Ne.symm hadd_slt, Ne.symm hsub_slt, Ne.symm hor_slt, Ne.symm hand_slt⟩⟩

/-! The five ALU words. `add` is tested first, so its code selects it whatever the others are. -/

theorem decode_packR_add (f : FuncCodes) (rD rA rB : Reg) :
    decode f (packR rA rB rD f.add) = .legal (.add rD rA rB) := by
  simp [decode_packR, decodeR]

section
variable {f : FuncCodes} (h : f.distinct = true) (rD rA rB : Reg)
include h

theorem decode_packR_sub : decode f (packR rA rB rD f.sub) = .legal (.sub rD rA rB) := by
  obtain ⟨hadd, -⟩ := FuncCodes.ne_earlier_of_distinct h
  simp [decode_packR, decodeR, hadd]

theorem decode_packR_or : decode f (packR rA rB rD f.or) = .legal (.or rD rA rB) := by
  obtain ⟨-, ⟨hadd, hsub⟩, -⟩ := FuncCodes.ne_earlier_of_distinct h
  simp [decode_packR, decodeR, hadd, hsub]

theorem decode_packR_and : decode f (packR rA rB rD f.and) = .legal (.and rD rA rB) := by
  obtain ⟨-, -, ⟨hadd, hsub, hor⟩, -⟩ := FuncCodes.ne_earlier_of_distinct h
  simp [decode_packR, decodeR, hadd, hsub, hor]

theorem decode_packR_slt : decode f (packR rA rB rD f.slt) = .legal (.slt rD rA rB) := by
  obtain ⟨-, -, -, hadd, hsub, hor, hand⟩ := FuncCodes.ne_earlier_of_distinct h
  simp [decode_packR, decodeR, hadd, hsub, hor, hand]

end

end Sys2Proof
end

