-- ==== Sys2Proof/Proofs/AluRegister.lean ====
section
/-! PROOFS. The three-register ALU instructions (42_alu_register.md R105 to R109): what `writeAdvance` does to registers,
`pc` and everything else, each operation's result as arithmetic, and from these the five statements. -/

namespace Sys2Proof.Machine

/-! The shared shape "write a register, advance `pc`": its registers, its `pc`, its frame. -/

/-- A register read after the write, observed through any `g`: a write to `x[0]` is discarded (10_state.md R12). -/
theorem State.map_x_writeAdvance {α : Type} (g : Word → α) (s : State) (r : Reg) (v : Word) (q : Reg) :
    g ((s.writeAdvance r v).x q) = if q = r ∧ q ≠ 0 then g v else g (s.x q) := by
  have hcond : q = r ∧ r ≠ 0 ↔ q = r ∧ q ≠ 0 := and_congr_right fun hq => by rw [hq]
  rw [State.x_writeAdvance, apply_ite g]
  exact if_congr hcond rfl rfl

theorem State.x_writeAdvance_dest (s : State) {r : Reg} (h : r ≠ 0) (v : Word) : (s.writeAdvance r v).x r = v := by
  rw [State.x_writeAdvance, if_pos ⟨rfl, h⟩]

theorem State.x_writeAdvance_other (s : State) {r q : Reg} (h : q ≠ r ∨ q = 0) (v : Word) :
    (s.writeAdvance r v).x q = s.x q := by
  rcases h with hne | rfl
  · rw [State.x_writeAdvance, if_neg fun hc => hne hc.1]
  · rw [State.x_zero, State.x_zero]

theorem State.pc_toNat_writeAdvance (s : State) (r : Reg) (v : Word) :
    (s.writeAdvance r v).pc.toNat = (s.pc.toNat + 1) % 8192 := by
  rw [State.pc_writeAdvance, BitVec.toNat_add]
  rfl

theorem State.onlyRegsAndPc_writeAdvance (s : State) (r : Reg) (v : Word) : OnlyRegsAndPc s (s.writeAdvance r v) :=
  ⟨fun b => s.memRead_writeAdvance r v b, ⟨s.caches_writeAdvance r v, s.trace_writeAdvance r v⟩,
    ⟨s.halted_writeAdvance r v, s.fault_writeAdvance r v⟩, s.params_writeAdvance r v⟩

/-! Each instruction completes with one `writeAdvance`. -/

theorem exec_add (s : State) (rD rA rB : Reg) :
    exec (.add rD rA rB) s = .next (s.writeAdvance rD (s.x rA + s.x rB)) := rfl

theorem exec_sub (s : State) (rD rA rB : Reg) :
    exec (.sub rD rA rB) s = .next (s.writeAdvance rD (s.x rA - s.x rB)) := rfl

theorem exec_or (s : State) (rD rA rB : Reg) :
    exec (.or rD rA rB) s = .next (s.writeAdvance rD (s.x rA ||| s.x rB)) := rfl

theorem exec_and (s : State) (rD rA rB : Reg) :
    exec (.and rD rA rB) s = .next (s.writeAdvance rD (s.x rA &&& s.x rB)) := rfl

theorem exec_slt (s : State) (rD rA rB : Reg) :
    exec (.slt rD rA rB) s = .next (s.writeAdvance rD (flagWord (lessUnsigned (s.x rA) (s.x rB)))) := rfl

/-! The results that need arithmetic. -/

/-- Word subtraction is integer subtraction modulo 65536, with no borrow recorded. -/
theorem sub_toNat_eq_emod (a b : Word) : ((a - b).toNat : Int) = ((a.toNat : Int) - b.toNat) % 65536 := by
  have hb := b.isLt
  rw [BitVec.toNat_sub]
  omega

theorem flagWord_lessUnsigned_toNat (a b : Word) :
    (flagWord (lessUnsigned a b)).toNat = if a.toNat < b.toNat then 1 else 0 := by
  by_cases hlt : a.toNat < b.toNat
  · simp [flagWord, lessUnsigned, hlt]
  · simp [flagWord, lessUnsigned, hlt]

/-! The five statements. -/

/-- Settles O23: the word written is the word sum, whose value is the sum modulo 65536. -/
theorem addWritesTheSum : Obligations.AddWritesTheSum := by
  unfold Obligations.AddWritesTheSum
  intro s rD rA rB
  refine ⟨fun f _ => decode_packR_add f rD rA rB, _, exec_add s rD rA rB, fun q => ?sum,
    State.pc_toNat_writeAdvance .., State.onlyRegsAndPc_writeAdvance ..⟩
  case sum => rw [State.map_x_writeAdvance BitVec.toNat, BitVec.toNat_add]

/-- Settles O24: the word written is the word difference, whose value is the integer difference modulo 65536. -/
theorem subWritesTheDifference : Obligations.SubWritesTheDifference := by
  unfold Obligations.SubWritesTheDifference
  intro s rD rA rB
  refine ⟨fun f hf => decode_packR_sub hf rD rA rB, _, exec_sub s rD rA rB, fun q => ?difference,
    State.pc_toNat_writeAdvance .., State.onlyRegsAndPc_writeAdvance ..⟩
  case difference => rw [State.map_x_writeAdvance fun w => (w.toNat : Int), sub_toNat_eq_emod]

/-- Settles O25: the word written is the word OR, read bit by bit. -/
theorem orWritesTheBitwiseOr : Obligations.OrWritesTheBitwiseOr := by
  unfold Obligations.OrWritesTheBitwiseOr
  intro s rD rA rB
  refine ⟨fun f hf => decode_packR_or hf rD rA rB, _, exec_or s rD rA rB, fun hD n => ?bits,
    fun q hq => State.x_writeAdvance_other s hq _, State.pc_toNat_writeAdvance .., State.onlyRegsAndPc_writeAdvance ..⟩
  case bits => rw [State.x_writeAdvance_dest s hD, BitVec.getLsbD_or]

/-- Settles O26: the word written is the word AND, read bit by bit. -/
theorem andWritesTheBitwiseAnd : Obligations.AndWritesTheBitwiseAnd := by
  unfold Obligations.AndWritesTheBitwiseAnd
  intro s rD rA rB
  refine ⟨fun f hf => decode_packR_and hf rD rA rB, _, exec_and s rD rA rB, fun hD n => ?bits,
    fun q hq => State.x_writeAdvance_other s hq _, State.pc_toNat_writeAdvance .., State.onlyRegsAndPc_writeAdvance ..⟩
  case bits => rw [State.x_writeAdvance_dest s hD, BitVec.getLsbD_and]

/-- Settles O27: the word written is the flag word of the unsigned comparison, whose value is 1 or 0. -/
theorem sltWritesTheUnsignedComparison : Obligations.SltWritesTheUnsignedComparison := by
  unfold Obligations.SltWritesTheUnsignedComparison
  intro s rD rA rB
  refine ⟨fun f hf => decode_packR_slt hf rD rA rB, _, exec_slt s rD rA rB, fun q => ?comparison,
    State.pc_toNat_writeAdvance .., State.onlyRegsAndPc_writeAdvance ..⟩
  case comparison => rw [State.map_x_writeAdvance BitVec.toNat, flagWord_lessUnsigned_toNat]

end Sys2Proof.Machine
end

