-- ==== Sys2Proof/Proofs/DecodeImmediate.lean ====
section
/-! PROOFS. The decoder on a format I word (30_encoding.md R51, R53, R55): the fields come back as they were packed, and
the opcodes of `addi` and `slti` select them whatever the function codes are. -/

namespace Sys2Proof

/-- A sign-extended immediate is packed as its own seven bits (30_encoding.md R53). -/
theorem packI_sext16 (op : Nat) (a b : Reg) (v : BitVec 7) :
    packI op a b (sext16 v) = BitVec.ofNat 16 (op * 8192 + a.val * 1024 + b.val * 128 + v.toNat) := by
  have hv := v.isLt
  have hlow : (sext16 v).toNat % 128 = v.toNat := by
    rw [sext16_toNat]
    split <;> omega
  rw [packI, hlow]

/-! The fields of a format I word. -/

section
variable {op : Nat} (h : op < 8) (a b : Reg) (imm : Word)
include h

theorem op_packI : (fieldsOf (packI op a b imm)).op = BitVec.ofNat 3 op := by
  rw [op_eq_iff, packI_toNat h, BitVec.toNat_ofNat]
  omega

theorem rA_packI : (fieldsOf (packI op a b imm)).rA = a :=
  regField_eq (by rw [packI_toNat h]; omega)

theorem rB_packI : (fieldsOf (packI op a b imm)).rB = b :=
  regField_eq (by rw [packI_toNat h]; omega)

theorem imm_packI_sext16 (v : BitVec 7) : (fieldsOf (packI op a b (sext16 v))).imm = sext16 v :=
  imm_eq (immReachable_sext16 v) (by rw [packI_toNat h]; omega)

end

/-! The words of the two ALU immediates. -/

theorem decode_packI_addi (f : FuncCodes) (rB rA : Reg) (v : BitVec 7) :
    decode f (packI 0b001 rA rB (sext16 v)) = .legal (.addi rB rA (sext16 v)) := by
  have hop : 0b001 < 8 := by decide
  simp [decode, op_packI hop, rA_packI hop, rB_packI hop, imm_packI_sext16 hop]

theorem decode_packI_slti (f : FuncCodes) (rB rA : Reg) (v : BitVec 7) :
    decode f (packI 0b111 rA rB (sext16 v)) = .legal (.slti rB rA (sext16 v)) := by
  have hop : 0b111 < 8 := by decide
  simp [decode, op_packI hop, rA_packI hop, rB_packI hop, imm_packI_sext16 hop]

end Sys2Proof
end

