-- ==== Sys2Proof/Proofs/AluImmediate.lean ====
section
/-! PROOFS. The register-immediate ALU instructions (43_alu_immediate.md R115, R116): each completes with one
`writeAdvance`, whose rules stand with the three-register instructions; what is new is the sign-extended immediate, as
an addend and as an unsigned comparand. -/

namespace Sys2Proof.Machine

theorem exec_addi (s : State) (rB rA : Reg) (imm : Word) :
    exec (.addi rB rA imm) s = .next (s.writeAdvance rB (s.x rA + imm)) := rfl

theorem exec_slti (s : State) (rB rA : Reg) (imm : Word) :
    exec (.slti rB rA imm) s = .next (s.writeAdvance rB (flagWord (lessUnsigned (s.x rA) imm))) := rfl

/-- The extended immediate is the 16-bit two's-complement pattern of the signed value (43_alu_immediate.md R115). -/
theorem sext16_toNat_eq_emod (v : BitVec 7) : ((sext16 v).toNat : Int) = v.toInt % 65536 := by
  have hv := v.isLt
  rw [sext16_toNat, BitVec.toInt_eq_toNat_cond]
  split <;> split <;> omega

/-- Adding the extended immediate adds the signed value, modulo 65536. -/
theorem add_sext16_toNat_eq_emod (a : Word) (v : BitVec 7) :
    ((a + sext16 v).toNat : Int) = (a.toNat + v.toInt) % 65536 := by
  rw [BitVec.toNat_add, Int.natCast_emod, Int.natCast_add, sext16_toNat_eq_emod]
  exact Int.add_emod_emod ..

/-- Settles O28: the word written is the sum with the extended immediate, whose value is the sum with the signed value
modulo 65536. -/
theorem addiAddsTheSignedImmediate : Obligations.AddiAddsTheSignedImmediate := by
  unfold Obligations.AddiAddsTheSignedImmediate
  intro s rB rA imm7
  refine ⟨fun f => ?word, _, exec_addi s rB rA (sext16 imm7), fun q => ?sum, State.pc_toNat_writeAdvance ..,
    State.onlyRegsAndPc_writeAdvance ..⟩
  case word => simpa only [packI_sext16, Nat.reduceMul] using decode_packI_addi f rB rA imm7
  case sum => rw [State.map_x_writeAdvance fun w => (w.toNat : Int), add_sext16_toNat_eq_emod]

/-- Settles O29: the word written is the flag word of the unsigned comparison with the extended immediate, whose value
is `imm7` or, with bit 6 set, `imm7 + 65408`. -/
theorem sltiComparesTheExtendedImmediateUnsigned : Obligations.SltiComparesTheExtendedImmediateUnsigned := by
  unfold Obligations.SltiComparesTheExtendedImmediateUnsigned
  intro s rB rA imm7
  refine ⟨fun f => ?word, _, exec_slti s rB rA (sext16 imm7), fun q => ?comparison, State.pc_toNat_writeAdvance ..,
    State.onlyRegsAndPc_writeAdvance ..⟩
  case word => simpa only [packI_sext16, Nat.reduceMul] using decode_packI_slti f rB rA imm7
  case comparison => rw [State.map_x_writeAdvance BitVec.toNat, flagWord_lessUnsigned_toNat, sext16_toNat]

end Sys2Proof.Machine
end

