-- ==== Sys2Proof/Proofs/DecodeLoadStore.lean ====
section
/-! PROOFS. The words of the load and the store (30_encoding.md R55): opcodes 100 and 101 of format I select `lw` and
`sw` whatever the function codes are. -/

namespace Sys2Proof

theorem decode_packI_lw (f : FuncCodes) (rB rA : Reg) (v : BitVec 7) :
    decode f (packI 0b100 rA rB (sext16 v)) = .legal (.lw rB rA (sext16 v)) := by
  have hop : 0b100 < 8 := by decide
  simp [decode, op_packI hop, rA_packI hop, rB_packI hop, imm_packI_sext16 hop]

theorem decode_packI_sw (f : FuncCodes) (rB rA : Reg) (v : BitVec 7) :
    decode f (packI 0b101 rA rB (sext16 v)) = .legal (.sw rB rA (sext16 v)) := by
  have hop : 0b101 < 8 := by decide
  simp [decode, op_packI hop, rA_packI hop, rB_packI hop, imm_packI_sext16 hop]

end Sys2Proof
end

