-- ==== Sys2Proof/Proofs/LoadStore.lean ====
section
/-! PROOFS. The load and the store (44_load_store.md R119 to R121): the effective address as arithmetic, each
instruction's next state in the named updates, and what a memory word and `pc` read after the store's updates. -/

namespace Sys2Proof.Machine

/-! The next states, in the order of the updates: the request comes first (44_load_store.md R122). -/

/-- The request does not write memory, so the word loaded is the one `s` holds. -/
theorem exec_lw (s : State) (rB rA : Reg) (imm : Word) :
    exec (.lw rB rA imm) s =
      .next ((s.request .load (s.ea rA imm)).writeAdvance rB (s.memRead (s.ea rA imm))) := rfl

theorem exec_sw (s : State) (rB rA : Reg) (imm : Word) :
    exec (.sw rB rA imm) s =
      .next ((s.request .store (s.ea rA imm)).memWrite (s.ea rA imm) (s.x rB)).advance := rfl

/-! The effective address. -/

theorem addrOf_toNat (v : Word) : (addrOf v).toNat = v.toNat % 8192 :=
  BitVec.toNat_setWidth 13 v

/-- Settles O30: the word sum is the signed sum modulo 65536, and 8192 divides 65536. -/
theorem effectiveAddressWraps : Obligations.EffectiveAddressWraps := by
  unfold Obligations.EffectiveAddressWraps
  intro s rA imm7
  have hdvd : (8192 : Int) ∣ 65536 := by decide
  rw [State.ea, addrOf_toNat, Int.natCast_emod, add_sext16_toNat_eq_emod]
  exact Int.emod_emod_of_dvd _ hdvd

/-! The load. -/

/-- Settles O31: the request gives caches and trace, the shared shape "write a register, advance `pc`" the rest. -/
theorem lwLoadsTheWordAndMakesOneRequest : Obligations.LwLoadsTheWordAndMakesOneRequest := by
  unfold Obligations.LwLoadsTheWordAndMakesOneRequest
  intro s rB rA imm7
  refine ⟨fun f => ?word, _, exec_lw s rB rA (sext16 imm7), ?effect⟩
  case word => simpa only [packI_sext16, Nat.reduceMul] using decode_packI_lw f rB rA imm7
  case effect =>
    rintro a rfl
    refine ⟨fun q => ?register, ?caches, ?trace, State.pc_toNat_writeAdvance .., fun b => ?memory, ?runState, ?params⟩
    case register =>
      rw [← s.x_request .load (s.ea rA (sext16 imm7)) q]
      exact State.map_x_writeAdvance id ..
    case caches => rw [State.caches_writeAdvance, State.caches_request]
    case trace => rw [State.trace_writeAdvance, State.trace_request]
    case memory => rw [State.memRead_writeAdvance, State.memRead_request]
    case runState => exact ⟨State.halted_writeAdvance .., State.fault_writeAdvance ..⟩
    case params => rw [State.params_writeAdvance, State.params_request]

/-! The store. -/

theorem State.pc_toNat_advance (s : State) : s.advance.pc.toNat = (s.pc.toNat + 1) % 8192 := by
  rw [State.pc_advance, BitVec.toNat_add]
  rfl

/-- A store's effect on memory reads: the request before the write and the `pc` after it play no part. -/
theorem State.memRead_request_memWrite_advance {s : State} (hm : s.mem.wf = true) (k : AccessKind) (a b : Addr)
    (v : Word) :
    ((s.request k a).memWrite a v).advance.memRead b = if b = a then v else s.memRead b := by
  have hm' : (s.request k a).mem.wf = true := by rwa [State.mem_request]
  rw [State.memRead_advance, State.memRead_memWrite hm', State.memRead_request]

/-- Settles O32: the request gives caches and trace, the one memory write the words, and neither touches a register. -/
theorem swStoresTheRegisterAndMakesOneRequest : Obligations.SwStoresTheRegisterAndMakesOneRequest := by
  unfold Obligations.SwStoresTheRegisterAndMakesOneRequest
  intro s rB rA imm7
  refine ⟨fun f => ?word, _, exec_sw s rB rA (sext16 imm7), ?effect, State.pc_toNat_advance _, fun q => ?register,
    ⟨State.halted_advance _, State.fault_advance _⟩, State.params_advance _⟩
  case word => simpa only [packI_sext16, Nat.reduceMul] using decode_packI_sw f rB rA imm7
  case register => rw [State.x_advance, State.x_memWrite, State.x_request]
  case effect =>
    rintro a rfl
    refine ⟨fun hm => ⟨?stored, fun b hb => ?others⟩, ?caches, ?trace⟩
    case stored => rw [State.memRead_request_memWrite_advance hm, if_pos rfl]
    case others => rw [State.memRead_request_memWrite_advance hm, if_neg hb]
    case caches => rw [State.caches_advance, State.caches_memWrite, State.caches_request]
    case trace => rw [State.trace_advance, State.trace_memWrite, State.trace_request]

end Sys2Proof.Machine
end

