-- ==== Sys2Proof/Proofs/DecodeTransfer.lean ====
section
/-! PROOFS. The words of the control transfers `jr`, `jeq` and `j` (30_encoding.md R51, R55, R56, R59): a `jr` word with
any ignored bits is a format R word whose unused register fields hold them; format J gives back opcode and target. -/

namespace Sys2Proof

/-! Format R: `jr`. -/

/-- The six ignored bits of a `jr` word are the fields `rB` and `rD` of format R (30_encoding.md R59). -/
theorem ofNat_ignored_eq_packR (a : Reg) (ignored : BitVec 6) (k : BitVec 4) :
    BitVec.ofNat 16 (a.val * 1024 + ignored.toNat * 16 + k.toNat) =
      packR a (ignored.extractLsb' 3 3).toFin (ignored.extractLsb' 0 3).toFin k := by
  have hignored := ignored.isLt
  have hk := k.isLt
  apply BitVec.eq_of_toNat_eq
  simp only [packR_toNat, BitVec.toNat_ofNat, BitVec.val_toFin, BitVec.extractLsb'_toNat, Nat.shiftRight_eq_div_pow]
  omega

/-- Under different function codes, that of `jr` differs from the five `decodeR` tests before it. -/
theorem FuncCodes.jr_ne_of_distinct {f : FuncCodes} (h : f.distinct = true) :
    f.jr ≠ f.add ∧ f.jr ≠ f.sub ∧ f.jr ≠ f.or ∧ f.jr ≠ f.and ∧ f.jr ≠ f.slt := by
  simp only [distinct_iff, ne_eq, BitVec.toNat_inj] at h
  obtain ⟨⟨-, -, -, -, hadd⟩, ⟨-, -, -, hsub⟩, ⟨-, -, hor⟩, ⟨-, hand⟩, hslt⟩ := h
  exact ⟨Ne.symm hadd, Ne.symm hsub, Ne.symm hor, Ne.symm hand, Ne.symm hslt⟩

/-- The fields `rB` and `rD` play no part. -/
theorem decode_packR_jr {f : FuncCodes} (h : f.distinct = true) (rA b d : Reg) :
    decode f (packR rA b d f.jr) = .legal (.jr rA) := by
  obtain ⟨hadd, hsub, hor, hand, hslt⟩ := FuncCodes.jr_ne_of_distinct h
  simp [decode_packR, decodeR, hadd, hsub, hor, hand, hslt]

/-! Format I: `jeq`. -/

theorem decode_packI_jeq (f : FuncCodes) (rA rB : Reg) (v : BitVec 7) :
    decode f (packI 0b110 rA rB (sext16 v)) = .legal (.jeq rA rB (sext16 v)) := by
  have hop : 0b110 < 8 := by decide
  simp [decode, op_packI hop, rA_packI hop, rB_packI hop, imm_packI_sext16 hop]

/-! Format J: `j`. -/

theorem op_packJ {op : Nat} (h : op < 8) (k : Addr) : (fieldsOf (packJ op k)).op = BitVec.ofNat 3 op := by
  have hk := k.isLt
  rw [op_eq_iff, packJ_toNat h, BitVec.toNat_ofNat]
  omega

theorem imm13_packJ {op : Nat} (h : op < 8) (k : Addr) : (fieldsOf (packJ op k)).imm13 = k := by
  have hk := k.isLt
  apply BitVec.eq_of_toNat_eq
  rw [fieldsOf, field_toNat, packJ_toNat h]
  omega

theorem decode_packJ_j (f : FuncCodes) (k : Addr) : decode f (packJ 0b010 k) = .legal (.j k) := by
  have hop : 0b010 < 8 := by decide
  simp [decode, op_packJ hop, imm13_packJ hop]

end Sys2Proof
end

