-- ==== Sys2Proof/Proofs/ControlTransfer.lean ====
section
/-! PROOFS. The control transfers `jr`, `jeq` and `j` (45_control_transfer.md R130 to R132, R134): each completes by
setting `pc`, or by the halt; the branch target is arithmetic modulo 8192. -/

namespace Sys2Proof.Machine

/-! Setting `pc` touches nothing else. -/

theorem State.sameRegs_setPc (s : State) (p : Addr) : SameRegs s (s.setPc p) := fun q => s.x_setPc p q

theorem State.onlyRegsAndPc_setPc (s : State) (p : Addr) : OnlyRegsAndPc s (s.setPc p) :=
  ⟨fun b => s.memRead_setPc p b, ⟨s.caches_setPc p, s.trace_setPc p⟩, ⟨s.halted_setPc p, s.fault_setPc p⟩,
    s.params_setPc p⟩

/-! The next states. -/

theorem exec_jr (s : State) (rA : Reg) : exec (.jr rA) s = .next (s.setPc (addrOf (s.x rA))) := rfl

theorem exec_jeq_taken {s : State} {rA rB : Reg} (h : s.x rA = s.x rB) (imm : Word) :
    exec (.jeq rA rB imm) s = .next (s.setPc (s.branchTarget imm)) :=
  if_pos (decide_eq_true h)

theorem exec_jeq_not_taken {s : State} {rA rB : Reg} (h : s.x rA ≠ s.x rB) (imm : Word) :
    exec (.jeq rA rB imm) s = .next (s.setPc (s.pc + 1)) :=
  if_neg fun hsame => h (of_decide_eq_true hsame)

theorem exec_j_self (s : State) : exec (.j s.pc) s = .next s.halt := if_pos rfl

theorem exec_j_other {s : State} {k : Addr} (h : k ≠ s.pc) : exec (.j k) s = .next (s.setPc k) := if_neg h

/-- A halted machine takes no step (10_state.md R18). -/
theorem step_ne_next_of_halted {s : State} (h : s.halted = true) (u : State) : step s ≠ .next u := by
  intro hstep
  obtain ⟨⟨hrunning, -⟩, -⟩ := step_cases hstep
  exact absurd (h.symm.trans hrunning) (by decide)

/-! The branch target. -/

/-- Neither the extension of `pc` to 16 bits nor the increment wraps. -/
theorem wordOf_add_one_toNat (a : Addr) : (wordOf a + 1).toNat = a.toNat + 1 := by
  have ha := a.isLt
  have hone : (1 : Word).toNat = 1 := rfl
  rw [BitVec.toNat_add, wordOf, BitVec.toNat_setWidth, hone]
  omega

/-- The 16-bit sum is the signed sum modulo 65536, and 8192 divides 65536 (45_control_transfer.md R131). -/
theorem State.branchTarget_sext16_toNat (s : State) (v : BitVec 7) :
    ((s.branchTarget (sext16 v)).toNat : Int) = (s.pc.toNat + 1 + v.toInt) % 8192 := by
  have hdvd : (8192 : Int) ∣ 65536 := by decide
  rw [State.branchTarget, addrOf_toNat, Int.natCast_emod, add_sext16_toNat_eq_emod, wordOf_add_one_toNat,
    Int.natCast_succ]
  exact Int.emod_emod_of_dvd _ hdvd

/-! The three statements. -/

/-- Settles O33: the ignored bits stand in fields `decodeR` does not read, and the target is the register's low 13
bits. -/
theorem jrJumpsToTheRegister : Obligations.JrJumpsToTheRegister := by
  unfold Obligations.JrJumpsToTheRegister
  intro s rA ignored
  refine ⟨fun f hf => ?word, _, exec_jr s rA, addrOf_toNat (s.x rA), s.sameRegs_setPc _, s.onlyRegsAndPc_setPc _⟩
  case word =>
    rw [ofNat_ignored_eq_packR]
    exact decode_packR_jr hf ..

/-- Settles O34, by cases on whether the two registers are equal. -/
theorem jeqBranchesWhenEqual : Obligations.JeqBranchesWhenEqual := by
  unfold Obligations.JeqBranchesWhenEqual
  intro s rA rB imm7
  simp only [ne_eq, BitVec.toNat_inj]
  refine ⟨fun f => ?word, ?effect⟩
  case word => simpa only [packI_sext16, Nat.reduceMul] using decode_packI_jeq f rA rB imm7
  case effect =>
    by_cases heq : s.x rA = s.x rB
    · exact ⟨_, exec_jeq_taken heq _, fun _ => s.branchTarget_sext16_toNat imm7, fun hne => absurd heq hne,
        s.sameRegs_setPc _, s.onlyRegsAndPc_setPc _⟩
    · exact ⟨_, exec_jeq_not_taken heq _, fun h => absurd h heq, fun _ => s.pc_toNat_advance,
        s.sameRegs_setPc _, s.onlyRegsAndPc_setPc _⟩

/-- Settles O35, by cases on whether the target is the instruction's own address. -/
theorem jJumpsOrHaltsAtItself : Obligations.JJumpsOrHaltsAtItself := by
  unfold Obligations.JJumpsOrHaltsAtItself
  intro s imm13
  refine ⟨fun f => decode_packJ_j f imm13, ?effect⟩
  by_cases hself : imm13 = s.pc
  · subst hself
    exact ⟨s.halt, exec_j_self s, fun hne => absurd rfl hne,
      fun _ => ⟨s.pc_halt, s.halted_halt, step_ne_next_of_halted s.halted_halt⟩, s.fault_halt, fun q => s.x_halt q,
      fun b => s.memRead_halt b, ⟨s.caches_halt, s.trace_halt⟩, s.params_halt⟩
  · obtain ⟨hmem, hcache, ⟨hhalted, hfault⟩, hparams⟩ := s.onlyRegsAndPc_setPc imm13
    exact ⟨_, exec_j_other hself, fun _ => ⟨s.pc_setPc imm13, hhalted⟩, fun h => absurd h hself, hfault,
      s.sameRegs_setPc imm13, hmem, hcache, hparams⟩

end Sys2Proof.Machine
end

