-- ==== Sys2Proof/Proofs/DecodeEncode.lean ====
section
/-! PROOFS. Decoder and encoder as inverses (30_encoding.md sections 1 to 5): a well-formed immediate is the extension of
a seven-bit field, so every word the encoder makes is one of those whose decoding is known; and packing the fields of a
word again gives the word. -/

namespace Sys2Proof

/-! Decode of encode. -/

/-- The values `sext_16` reaches are the extensions of seven-bit fields (30_encoding.md R53). -/
theorem exists_eq_sext16 {imm : Word} (h : immReachable imm = true) : ∃ v : BitVec 7, imm = sext16 v := by
  simp only [immReachable, decide_eq_true_eq] at h
  refine ⟨imm.setWidth 7, BitVec.eq_of_toNat_eq ?_⟩
  rw [sext16_toNat, BitVec.toNat_setWidth]
  split <;> omega

theorem decode_packJ_jal (f : FuncCodes) (k : Addr) : decode f (packJ 0b011 k) = .legal (.jal k) := by
  have hop : 0b011 < 8 := by decide
  simp [decode, op_packJ hop, imm13_packJ hop]

/-- Settles O5, instruction by instruction: format R by the function code, the immediates as extensions of their seven
bits, format J by the opcode. -/
theorem decodeOfEncodeIsTheInstruction : Obligations.DecodeOfEncodeIsTheInstruction := by
  unfold Obligations.DecodeOfEncodeIsTheInstruction
  intro f i hf hi
  cases i with
  | add rD rA rB => exact decode_packR_add f rD rA rB
  | sub rD rA rB => exact decode_packR_sub hf rD rA rB
  | or rD rA rB => exact decode_packR_or hf rD rA rB
  | and rD rA rB => exact decode_packR_and hf rD rA rB
  | slt rD rA rB => exact decode_packR_slt hf rD rA rB
  | jr rA => exact decode_packR_jr hf rA 0 0
  | j k => exact decode_packJ_j f k
  | jal k => exact decode_packJ_jal f k
  | addi rB rA imm =>
    obtain ⟨v, rfl⟩ := exists_eq_sext16 hi
    exact decode_packI_addi f rB rA v
  | lw rB rA imm =>
    obtain ⟨v, rfl⟩ := exists_eq_sext16 hi
    exact decode_packI_lw f rB rA v
  | sw rB rA imm =>
    obtain ⟨v, rfl⟩ := exists_eq_sext16 hi
    exact decode_packI_sw f rB rA v
  | jeq rA rB imm =>
    obtain ⟨v, rfl⟩ := exists_eq_sext16 hi
    exact decode_packI_jeq f rA rB v
  | slti rB rA imm =>
    obtain ⟨v, rfl⟩ := exists_eq_sext16 hi
    exact decode_packI_slti f rB rA v

/-! Encode of decode: the fields of a word, packed again. -/

theorem func_toNat (w : Word) : (fieldsOf w).func.toNat = w.toNat % 16 := by
  simp [fieldsOf]

theorem imm13_toNat (w : Word) : (fieldsOf w).imm13.toNat = w.toNat % 8192 := by
  simp [fieldsOf]

theorem rA_val (w : Word) : (fieldsOf w).rA.val = w.toNat / 1024 % 8 := regField_val w 10

theorem rB_val (w : Word) : (fieldsOf w).rB.val = w.toNat / 128 % 8 := regField_val w 7

theorem rD_val (w : Word) : (fieldsOf w).rD.val = w.toNat / 16 % 8 := regField_val w 4

theorem immReachable_imm (w : Word) : immReachable (fieldsOf w).imm = true := immReachable_sext16 _

theorem packR_fieldsOf {w : Word} (h : w.toNat / 8192 = 0) :
    packR (fieldsOf w).rA (fieldsOf w).rB (fieldsOf w).rD (fieldsOf w).func = w := by
  apply BitVec.eq_of_toNat_eq
  rw [packR_toNat, rA_val, rB_val, rD_val, func_toNat]
  omega

theorem packI_fieldsOf {w : Word} {op : Nat} (h : w.toNat / 8192 = op) :
    packI op (fieldsOf w).rA (fieldsOf w).rB (fieldsOf w).imm = w := by
  have hw := w.isLt
  have himm : (fieldsOf w).imm.toNat % 128 = w.toNat % 128 := by
    rw [imm_toNat]
    split <;> omega
  apply BitVec.eq_of_toNat_eq
  rw [packI_toNat (by omega), rA_val, rB_val, himm]
  omega

theorem packJ_fieldsOf {w : Word} {op : Nat} (h : w.toNat / 8192 = op) : packJ op (fieldsOf w).imm13 = w := by
  have hw := w.isLt
  apply BitVec.eq_of_toNat_eq
  rw [packJ_toNat (by omega), imm13_toNat]
  omega

/-! A mask of the bits from `hi` up and of the low `lo` bits, as arithmetic: the masks of 30_encoding.md section 6 and
that of the canonical `jr` are of this form. -/

theorem toNat_and_mask {lo hi : Nat} (hlo : lo ≤ hi) (w : Word) :
    (w &&& BitVec.ofNat 16 (2 ^ hi * (2 ^ (16 - hi) - 1) + (2 ^ lo - 1))).toNat =
      2 ^ hi * (w.toNat / 2 ^ hi) + w.toNat % 2 ^ lo := by
  have hpos : 0 < 2 ^ lo := Nat.two_pow_pos lo
  have hle : 2 ^ lo ≤ 2 ^ hi := Nat.pow_le_pow_right (by decide) hlo
  have hlowMask : 2 ^ lo - 1 < 2 ^ hi := by omega
  have hlowWord : w.toNat % 2 ^ lo < 2 ^ hi := lt_of_lt_of_le (Nat.mod_lt _ hpos) hle
  apply Nat.eq_of_testBit_eq
  intro n
  rw [Nat.testBit_two_pow_mul_add _ hlowWord, BitVec.toNat_and, Nat.testBit_and, BitVec.toNat_ofNat,
    Nat.testBit_mod_two_pow, Nat.testBit_two_pow_mul_add _ hlowMask, Nat.testBit_mod_two_pow, Nat.testBit_div_two_pow]
  cases hbit : w.toNat.testBit n with
  | false =>
    by_cases hn : n < hi
    · simp [hn]
    · simp [hn, hbit, Nat.sub_add_cancel (Nat.le_of_not_lt hn)]
  | true =>
    have h16 : n < 16 := BitVec.lt_of_getLsbD (by rwa [BitVec.testBit_toNat] at hbit)
    by_cases hn : n < hi
    · simp [hn, h16, Nat.testBit_two_pow_sub_one]
    · have hhigh : n - hi < 16 - hi := by omega
      simp [hn, h16, hhigh, hbit, Nat.sub_add_cancel (Nat.le_of_not_lt hn), Nat.testBit_two_pow_sub_one]

theorem toNat_and_opcodeMask (w : Word) : (w &&& 0xE000#16).toNat = 8192 * (w.toNat / 8192) := by
  simpa [Nat.mod_one] using toNat_and_mask (lo := 0) (hi := 13) (by decide) w

theorem toNat_and_funcMask (w : Word) : (w &&& 0xE00F#16).toNat = 8192 * (w.toNat / 8192) + w.toNat % 16 :=
  toNat_and_mask (lo := 4) (hi := 13) (by decide) w

theorem toNat_and_jrMask (w : Word) : (w &&& 0xFC0F#16).toNat = 1024 * (w.toNat / 1024) + w.toNat % 16 :=
  toNat_and_mask (lo := 4) (hi := 10) (by decide) w

/-- The word of an instruction decoded under opcode 000, by the function code that selected it. -/
theorem encode_of_decodeR {f : FuncCodes} {w : Word} (hw : w.toNat / 8192 = 0) {i : Instr}
    (h : decodeR f w (fieldsOf w) = .legal i) :
    (encode f i = w ∧ (∀ rA, i ≠ .jr rA) ∧ i.wf = true) ∨ ∃ rA, i = .jr rA ∧ encode f i = w &&& 0xFC0F#16 := by
  have hpack (k : BitVec 4) (hk : (fieldsOf w).func = k) :
      packR (fieldsOf w).rA (fieldsOf w).rB (fieldsOf w).rD k = w := hk ▸ packR_fieldsOf hw
  unfold decodeR at h
  split_ifs at h with hk hk hk hk hk hk <;> cases h
  · exact .inl ⟨hpack _ hk, by simp, rfl⟩
  · exact .inl ⟨hpack _ hk, by simp, rfl⟩
  · exact .inl ⟨hpack _ hk, by simp, rfl⟩
  · exact .inl ⟨hpack _ hk, by simp, rfl⟩
  · exact .inl ⟨hpack _ hk, by simp, rfl⟩
  · refine .inr ⟨_, rfl, BitVec.eq_of_toNat_eq ?_⟩
    rw [toNat_and_jrMask, Laws.Layout.jr, rA_val, ← hk, func_toNat]
    omega

/-- Settles O6, by the opcode: a word of opcode 000 by the code that selected it, the others by packing their fields
again. -/
theorem encodeOfDecodeIsTheWord : Obligations.EncodeOfDecodeIsTheWord := by
  unfold Obligations.EncodeOfDecodeIsTheWord
  intro f w i
  refine decode_by_opcode (P := fun d => d = .legal i → _) ?_ ?_ ?_ ?_ ?_ ?_ ?_ ?_
  · intro hw h
    rcases encode_of_decodeR hw h with ⟨hword, hjr, hwf⟩ | ⟨rA, rfl, hword⟩
    · exact ⟨hwf, fun _ => hword, fun rA h => absurd h (hjr rA)⟩
    · exact ⟨rfl, fun h => absurd rfl (h rA), fun _ _ => hword⟩
  · rintro hw ⟨⟩; exact ⟨immReachable_imm w, fun _ => packI_fieldsOf hw, by simp⟩
  · rintro hw ⟨⟩; exact ⟨rfl, fun _ => packJ_fieldsOf hw, by simp⟩
  · rintro hw ⟨⟩; exact ⟨rfl, fun _ => packJ_fieldsOf hw, by simp⟩
  · rintro hw ⟨⟩; exact ⟨immReachable_imm w, fun _ => packI_fieldsOf hw, by simp⟩
  · rintro hw ⟨⟩; exact ⟨immReachable_imm w, fun _ => packI_fieldsOf hw, by simp⟩
  · rintro hw ⟨⟩; exact ⟨immReachable_imm w, fun _ => packI_fieldsOf hw, by simp⟩
  · rintro hw ⟨⟩; exact ⟨immReachable_imm w, fun _ => packI_fieldsOf hw, by simp⟩

end Sys2Proof
end

