-- ==== Sys2Proof/Proofs/DecodeTables.lean ====
section
/-! PROOFS. The decoder against the tables of the spec (30_encoding.md sections 1, 2, 4 and 6): the fields as arithmetic,
the pattern rows as arithmetic on the word, and under the decided function codes the instruction of every row and the
illegal words. -/

namespace Sys2Proof

/-- A field with its bit 6 set extends to its two's-complement value, by the OR of the high bits (30_encoding.md R53). -/
theorem sext16_of_negative {v : BitVec 7} (h : 64 ≤ v.toNat) :
    (sext16 v).toInt = (v.toNat : Int) - 128 ∧ sext16 v = BitVec.ofNat 16 v.toNat ||| 0xFFC0#16 := by
  revert v; decide

/-- Settles O1: each field is a quotient and remainder of the word. -/
theorem decoderFieldsAreTheBitSlices : Obligations.DecoderFieldsAreTheBitSlices := by
  unfold Obligations.DecoderFieldsAreTheBitSlices
  intro w
  have hop : w.toNat / 8192 = (fieldsOf w).op.toNat := (op_eq_iff w _).1 rfl
  have himm : (w.extractLsb' 0 7).toNat = w.toNat % 128 := by simp
  refine ⟨hop.symm, rA_val w, rB_val w, rD_val w, func_toNat w, imm13_toNat w, fun h => ?positive, fun h => ?negative⟩
  case positive => rw [imm_toNat, if_pos h]
  case negative => simpa [fieldsOf, himm] using sext16_of_negative (himm.ge.trans' h)

/-! The rows of the pattern table. -/

/-- A row of the opcode alone: its pattern holds the opcode in bits 15:13 and zeros below. -/
theorem matches_opcode {p : Word} (hp : p.toNat % 8192 = 0) (m : String) (w : Word) :
    (PatternRow.mk m p 0xE000#16).matches w = decide (w.toNat / 8192 = p.toNat / 8192) := by
  simp only [PatternRow.matches, decide_eq_decide, ← BitVec.toNat_inj, toNat_and_opcodeMask]
  omega

/-- A row of opcode 000: its pattern is the function code. -/
theorem matches_func {p : Word} (hp : p.toNat < 16) (m : String) (w : Word) :
    (PatternRow.mk m p 0xE00F#16).matches w = decide (w.toNat / 8192 = 0 ∧ w.toNat % 16 = p.toNat) := by
  simp only [PatternRow.matches, decide_eq_decide, ← BitVec.toNat_inj, toNat_and_funcMask]
  omega

/-- Under the decided function codes, opcode 000 by the low four bits of the word. -/
theorem decodeR_decidedFunc (w : Word) : decodeR decidedFunc w (fieldsOf w) =
    if w.toNat % 16 = 0 then .legal (.add (fieldsOf w).rD (fieldsOf w).rA (fieldsOf w).rB)
    else if w.toNat % 16 = 1 then .legal (.sub (fieldsOf w).rD (fieldsOf w).rA (fieldsOf w).rB)
    else if w.toNat % 16 = 2 then .legal (.or (fieldsOf w).rD (fieldsOf w).rA (fieldsOf w).rB)
    else if w.toNat % 16 = 3 then .legal (.and (fieldsOf w).rD (fieldsOf w).rA (fieldsOf w).rB)
    else if w.toNat % 16 = 4 then .legal (.slt (fieldsOf w).rD (fieldsOf w).rA (fieldsOf w).rB)
    else if w.toNat % 16 = 8 then .legal (.jr (fieldsOf w).rA)
    else .illegal w := by
  simp [decodeR, func_eq_iff, decidedFunc]

/-- A word whose low four bits are no decided function code. -/
def UnassignedFunc (w : Word) : Prop :=
  ¬ (w.toNat % 16 = 0 ∨ w.toNat % 16 = 1 ∨ w.toNat % 16 = 2 ∨ w.toNat % 16 = 3 ∨ w.toNat % 16 = 4 ∨ w.toNat % 16 = 8)

theorem decodeR_decidedFunc_illegal_iff (w v : Word) :
    decodeR decidedFunc w (fieldsOf w) = .illegal v ↔ v = w ∧ UnassignedFunc w := by
  rw [decodeR_decidedFunc]
  split_ifs <;> simp [UnassignedFunc, @eq_comm _ w v, *]

/-- Settles O4: only opcode 000 has unassigned codes; the other seven opcodes always decode. -/
theorem illegalWordsAreTheUnassignedFunctionCodes : Obligations.IllegalWordsAreTheUnassignedFunctionCodes := by
  unfold Obligations.IllegalWordsAreTheUnassignedFunctionCodes
  intro w v
  have hlegal : ∀ (i : Instr) (k : Nat), 1 ≤ k → w.toNat / 8192 = k →
      (Decoded.legal i = .illegal v ↔ v = w ∧ w.toNat < 8192 ∧ UnassignedFunc w) := by
    intro i k hk hw
    have hhigh : ¬ w.toNat < 8192 := by omega
    simp [hhigh]
  refine decode_by_opcode (P := fun d => d = .illegal v ↔ v = w ∧ w.toNat < 8192 ∧ UnassignedFunc w) (fun hw => ?_)
    (hlegal _ 1 (by decide)) (hlegal _ 2 (by decide)) (hlegal _ 3 (by decide)) (hlegal _ 4 (by decide))
    (hlegal _ 5 (by decide)) (hlegal _ 6 (by decide)) (hlegal _ 7 (by decide))
  have hlow : w.toNat < 8192 := by omega
  rw [decodeR_decidedFunc_illegal_iff, and_iff_right hlow]

/-- The rows of the table that match a word are those with the mnemonic of the instruction decoded. -/
def RowsAgree (w : Word) (d : Decoded) : Prop :=
  ∀ row ∈ patternTable, (row.matches w = true ↔ ∃ i, d = .legal i ∧ i.mnemonic = row.mnemonic)

theorem rowsAgree_decodeR {w : Word} (h : w.toNat / 8192 = 0) : RowsAgree w (decodeR decidedFunc w (fieldsOf w)) := by
  rw [decodeR_decidedFunc]
  split_ifs <;> simp [RowsAgree, patternTable, matches_opcode, matches_func, Instr.mnemonic, *]

/-- Settles O3, by the opcode: under opcode 000 the low four bits pick the row, under each other one the opcode alone. -/
theorem decodeAgreesWithPatternTable : Obligations.DecodeAgreesWithPatternTable := by
  unfold Obligations.DecodeAgreesWithPatternTable
  intro w
  refine decode_by_opcode (P := RowsAgree w) rowsAgree_decodeR ?addi ?j ?jal ?lw ?sw ?jeq ?slti
  all_goals
    intro h
    simp [RowsAgree, patternTable, matches_opcode, matches_func, h, Instr.mnemonic]

/-- Settles O2: each word is evaluated by the decoder. -/
theorem specWordsDecodeAsListed : Obligations.SpecWordsDecodeAsListed := by
  unfold Obligations.SpecWordsDecodeAsListed
  decide

end Sys2Proof
end

