-- ==== Sys2Proof/Proofs/LineStoreClasses.lean ====
section
/-! PROOFS. What holds of every class of the Cache Line Store alike (40_cache_line_store.md sections 4 to 6): the
single-tag algorithm is the set-associative one with one way, the fully-associative class is the single-tag algorithm on
line 0, and an accessed block is resident and most recent. -/

namespace Sys2Proof

theorem LevelConfig.lineUsed_full {c : LevelConfig} (h : c.associativity = 0) (a : Addr) : c.lineUsed a = 0 := if_pos h

theorem LevelConfig.tagUsed_full {c : LevelConfig} (h : c.associativity = 0) (a : Addr) : c.tagUsed a = c.blockID a :=
  if_pos h

/-- A direct-mapped level of one line uses line 0 and the block number, as a fully-associative one does. -/
theorem LevelConfig.used_of_one_line {c : LevelConfig} (ha : c.associativity = 1) (hn : c.numLines = 1) (a : Addr) :
    c.lineUsed a = 0 ∧ c.tagUsed a = c.blockID a := by
  rw [LevelConfig.lineUsed_of_ways ha.ge, LevelConfig.tagUsed_of_ways ha.ge, LevelConfig.lineOf, LevelConfig.tagOf, hn]
  exact ⟨Nat.mod_one _, Nat.div_one _⟩

/-- The line and tag used depend on the block only. -/
theorem LevelConfig.used_congr {c : LevelConfig} {a b : Addr} (h : c.blockID b = c.blockID a) :
    c.lineUsed b = c.lineUsed a ∧ c.tagUsed b = c.tagUsed a := by
  simp only [LevelConfig.lineUsed, LevelConfig.tagUsed, LevelConfig.lineOf, LevelConfig.tagOf, h, and_self]

namespace Machine

/-! One algorithm (40_cache_line_store.md section 6). -/

/-- On a line of at most one tag that is valid exactly when it holds one, the two algorithms agree. -/
theorem Line.accessLru_one_eq_accessSingle {l : Line} (hshort : l.tags.length ≤ 1)
    (hvalid : l.valid = true ↔ l.tags ≠ []) (tag : Nat) : l.accessLru 1 tag = l.accessSingle tag := by
  obtain ⟨valid, tags⟩ := l
  match tags, hshort with
  | [], _ =>
    have hv : valid = false := by simpa using hvalid
    simp [Line.accessLru, Line.accessSingle, evict, hv]
  | [t], _ =>
    have hv : valid = true := hvalid.2 (List.cons_ne_nil t [])
    by_cases ht : t = tag
    · simp [Line.accessLru, Line.accessSingle, hv, ht]
    · simp [Line.accessLru, Line.accessSingle, evict, hv, ht, Ne.symm ht]

/-- Settles O15: the first part on the line, the second because both levels use line 0 and the block number. -/
theorem oneAlgorithmServesEveryClass : Obligations.OneAlgorithmServesEveryClass := by
  unfold Obligations.OneAlgorithmServesEveryClass
  refine ⟨fun tag l hl => Line.accessLru_one_eq_accessSingle hl.short hl.valid tag, ?_⟩
  intro c d a hfull hblock hcfg hlines
  have hassoc : d.cfg.associativity = 1 := by rw [hcfg]
  have hone : d.cfg.numLines = 1 := by rw [hcfg]; exact Nat.div_self hblock
  have hid : d.cfg.blockID a = c.cfg.blockID a := by rw [hcfg]; rfl
  obtain ⟨hline, htag⟩ := LevelConfig.used_of_one_line hassoc hone a
  simp only [CacheLevel.access_outcome, CacheLevel.access_line, CacheLevel.access_lines, CacheLevel.line, hlines, hline,
    htag, hid, LevelConfig.lineUsed_full hfull, LevelConfig.tagUsed_full hfull, Line.access_of_le_one hassoc.le,
    Line.access_of_le_one (hfull.trans_le (Nat.zero_le 1)), and_self]

/-! The fully-associative class (40_cache_line_store.md section 4). -/

/-- Settles O11: the level runs the single-tag algorithm on line 0 with the block number. -/
theorem fullyAssociativeAccess : Obligations.FullyAssociativeAccess := by
  unfold Obligations.FullyAssociativeAccess
  intro c a hok hfull
  have hline := LevelConfig.lineUsed_full hfull a
  have hlt := CacheLevel.lineUsed_lt hok a
  have htag : c.cfg.tagUsed a = a.toNat / c.cfg.blockSize := LevelConfig.tagUsed_full hfull a
  have hone : c.cfg.associativity ≤ 1 := by omega
  rw [CacheLevel.access_line, CacheLevel.access_outcome, CacheLevel.line_access hlt, hline, htag,
    Line.access_of_le_one hone, if_pos rfl]
  refine ⟨rfl, Line.accessSingle_hit_iff _ _, Line.accessSingle_line _ _, fun j hj => ?_⟩
  rw [CacheLevel.line_access hlt, hline, if_neg hj]

/-! Every class (40_cache_line_store.md section 6, first law). -/

/-- After an access the tag is the last of a valid line. -/
theorem Line.access_valid_last {n : Nat} {l : Line} (hl : Line.Ok n l) (tag : Nat) :
    (l.access n tag).2.valid = true ∧ (l.access n tag).2.tags.getLast? = some tag := by
  rcases Nat.lt_or_ge 1 n with hn | hn
  · rw [Line.access_of_one_lt hn]
    rcases l.accessLru_cases n tag with ⟨hm, he⟩ | ⟨-, he⟩
    · rw [he]
      exact ⟨hl.valid.2 (List.ne_nil_of_mem hm), List.getLast?_concat ..⟩
    · rw [he]
      exact ⟨rfl, List.getLast?_concat ..⟩
  · rw [Line.access_of_le_one hn, Line.accessSingle_line]
    exact ⟨rfl, rfl⟩

/-- Once accessed, a tag hits. -/
theorem Line.access_access_hit (n tag : Nat) (l : Line) : ((l.access n tag).2.access n tag).1 = .hit := by
  rcases Nat.lt_or_ge 1 n with hn | hn
  · rw [Line.access_of_one_lt hn, Line.access_of_one_lt hn, Line.accessLru_hit_iff]
    rcases l.accessLru_cases n tag with ⟨-, he⟩ | ⟨-, he⟩
    · rw [he]; exact List.mem_append_right _ (List.mem_singleton_self tag)
    · rw [he]; exact List.mem_append_right _ (List.mem_singleton_self tag)
  · rw [Line.access_of_le_one hn, Line.access_of_le_one hn, Line.accessSingle_hit_iff, Line.accessSingle_line]
    exact ⟨rfl, rfl⟩

/-- Settles O13: an address of the same block uses the same line and tag. -/
theorem accessedBlockIsResidentAndMostRecent : Obligations.AccessedBlockIsResidentAndMostRecent := by
  unfold Obligations.AccessedBlockIsResidentAndMostRecent
  intro c a b hok hblock
  obtain ⟨hline, htag⟩ := LevelConfig.used_congr hblock
  have hafter := CacheLevel.line_access (CacheLevel.lineUsed_lt hok a) (c.cfg.lineUsed a)
  rw [if_pos rfl] at hafter
  obtain ⟨hvalid, hlast⟩ := Line.access_valid_last (CacheLevel.line_ok hok (c.cfg.lineUsed a)) (c.cfg.tagUsed a)
  rw [CacheLevel.access_line, CacheLevel.access_outcome, CacheLevel.access_cfg, hline, htag, hafter]
  exact ⟨hvalid, hlast, Line.access_access_hit ..⟩

/-! The two-way class (40_cache_line_store.md section 5). -/

/-- Settles O14, by running the four accesses. -/
theorem twoWayEvictsTheLeastRecentlyUsed : Obligations.TwoWayEvictsTheLeastRecentlyUsed := by
  unfold Obligations.TwoWayEvictsTheLeastRecentlyUsed
  intro l A B C hl hAB hAC hBC
  simp [Line.verdicts, Line.access, Line.accessLru, evict, hl, hAB, hAC, hBC, Ne.symm hAB, Ne.symm hAC, Ne.symm hBC]

end Machine

end Sys2Proof
end

