-- ==== Sys2Proof/Proofs/Recency.lean ====
section
/-! PROOFS. LRU replacement as a refinement (40_cache_line_store.md sections 3 to 6): a line is a window onto the uncapped
recency order, its last `max n 1` tags, and an access moves window and order alike. -/

namespace Sys2Proof.Machine

/-! The window of `m` tags at the end of a recency order, `List.rtake`, when a tag is moved to the back. -/

/-- An order is the tags out of the window, if any, and the window, which is full or all of the order. -/
theorem exists_eq_append_rtake (m : Nat) (seen : List Nat) :
    ∃ old, seen = old ++ seen.rtake m ∧
      ((seen.rtake m).length = m ∨ old = [] ∧ (seen.rtake m).length < m) := by
  refine ⟨seen.take (seen.length - m), (List.take_append_drop _ _).symm, ?_⟩
  rw [List.rtake, List.length_drop, List.take_eq_nil_iff]
  omega

/-- Behind any older tags, the window one smaller than `w` is `w` without its front. -/
theorem rtake_append_of_length {m : Nat} {w : List Nat} (h : w.length = m + 1) (old : List Nat) :
    (old ++ w).rtake m = w.drop 1 := by
  have hn : (old ++ w).length - m = old.length + 1 := by rw [List.length_append, h]; omega
  rw [List.rtake, hn, List.drop_length_add_append]

theorem rtake_of_length_le {m : Nat} {w : List Nat} (h : w.length ≤ m) : w.rtake m = w := by
  rw [List.rtake, Nat.sub_eq_zero_of_le h, List.drop_zero]

/-- What stays in the window besides the tag moved: on a hit the others, on a miss all but the one evicted. -/
theorem rtake_erase {m t : Nat} {seen : List Nat} (hnodup : seen.Nodup) :
    (seen.erase t).rtake m =
      if t ∈ seen.rtake (m + 1) then (seen.rtake (m + 1)).erase t else evict (m + 1) (seen.rtake (m + 1)) := by
  obtain ⟨old, hsplit, hsize⟩ := exists_eq_append_rtake (m + 1) seen
  generalize seen.rtake (m + 1) = w at hsplit hsize ⊢
  subst hsplit
  by_cases hin : t ∈ w
  · have hold : t ∉ old := fun h => List.disjoint_of_nodup_append hnodup h hin
    have hlen := List.length_erase_of_mem hin
    rw [if_pos hin, List.erase_append_right _ hold]
    rcases hsize with hfull | ⟨rfl, hroom⟩
    · have hn : (old ++ w.erase t).length - m = old.length := by rw [List.length_append, hlen, hfull]; omega
      rw [List.rtake, hn, List.drop_left]
    · exact rtake_of_length_le (by rw [List.nil_append, hlen]; omega)
  · rw [if_neg hin]
    rcases hsize with hfull | ⟨rfl, hroom⟩
    · have herase : (old ++ w).erase t = old.erase t ++ w := by
        rw [List.erase_append, List.erase_of_not_mem hin]
        split
        · rfl
        · rw [List.erase_of_not_mem ‹_›]
      rw [herase, rtake_append_of_length hfull, evict, if_pos hfull]
    · rw [List.nil_append, List.erase_of_not_mem hin, rtake_of_length_le (by omega), evict_of_room hroom]

/-- The line is the window onto the recency order of its tags, which its ways allow. -/
structure Line.Window (n : Nat) (seen : List Nat) (l : Line) : Prop where
  nodup : seen.Nodup
  tags  : l.tags = seen.rtake (max n 1)
  valid : l.valid = true ↔ l.tags ≠ []

theorem Line.window_of_ok {n : Nat} {l : Line} (h : Line.Ok n l) : Line.Window n l.tags l where
  nodup := h.nodup
  tags := (rtake_of_length_le h.short).symm
  valid := h.valid

/-- In a window every class runs the set-associative algorithm: with at most one way the two agree. -/
theorem Line.Window.access_eq {n : Nat} {seen : List Nat} {l : Line} (h : Line.Window n seen l) (tag : Nat) :
    l.access n tag = l.accessLru (max n 1) tag := by
  rcases Nat.lt_or_ge 1 n with hn | hn
  · rw [Line.access_of_one_lt hn, Nat.max_eq_left hn.le]
  · have hshort : l.tags.length ≤ 1 := by
      rw [h.tags, Nat.max_eq_right hn, List.rtake, List.length_drop]
      omega
    rw [Line.access_of_le_one hn, Nat.max_eq_right hn, Line.accessLru_one_eq_accessSingle hshort h.valid]

/-- An access moves the recency order and the window together. -/
theorem Line.Window.access {n : Nat} {seen : List Nat} {l : Line} (h : Line.Window n seen l) (tag : Nat) :
    Line.Window n (seen.erase tag ++ [tag]) (l.access n tag).2 := by
  obtain ⟨m, hm⟩ : ∃ m, max n 1 = m + 1 := ⟨max n 1 - 1, by omega⟩
  have hnot : tag ∉ seen.erase tag := h.nodup.not_mem_erase
  have hmove : (seen.erase tag ++ [tag]).rtake (m + 1) = (seen.erase tag).rtake m ++ [tag] :=
    List.rtake_concat_succ ..
  have htags := h.tags
  rw [h.access_eq, hm]
  rw [hm] at htags
  refine { nodup := by simpa using (h.nodup.erase tag).concat hnot, tags := ?_, valid := ?_ }
  · rw [hm, hmove, rtake_erase h.nodup, ← htags]
    rcases l.accessLru_cases (m + 1) tag with ⟨hin, he⟩ | ⟨hout, he⟩
    · rw [he, if_pos hin]
    · rw [he, if_neg hout]
  · rcases l.accessLru_cases (m + 1) tag with ⟨hin, he⟩ | ⟨-, he⟩
    · rw [he]; simpa using h.valid.2 (List.ne_nil_of_mem hin)
    · simp [he]

/-- Any sequence of accesses keeps the window. -/
theorem Line.Window.accesses {n : Nat} {seen : List Nat} {l : Line} (h : Line.Window n seen l) (ts : List Nat) :
    Line.Window n (recency seen ts) (Line.accesses n l ts) := by
  induction ts generalizing seen l with
  | nil => exact h
  | cons t ts ih => exact ih (h.access t)

/-- Settles O16: an orderly line is the window onto its own tags, and every access keeps it a window. -/
theorem lineHoldsTheMostRecentTags : Obligations.LineHoldsTheMostRecentTags := by
  unfold Obligations.LineHoldsTheMostRecentTags
  intro n l ts hl
  exact ((Line.window_of_ok hl).accesses ts).tags

end Sys2Proof.Machine
end

