-- ==== Sys2Proof/Proofs/LevelIndependence.lean ====
section
/-! PROOFS. Independence of levels (41_cache_hierarchy.md sections 3 and 5): what one more request adds to a served
sequence, for L1 alone, for both levels and for L2 fed by the L1 misses and the stores; and the store's marks. -/

namespace Sys2Proof.Machine

/-! The requests that reach L2, one more in front (41_cache_hierarchy.md R96). -/

theorem l2Stream_store (upd : Bool) (c : CacheLevel) (a p : Addr) (rs : List Request) :
    l2Stream upd c (⟨.store, a, p⟩ :: rs) =
      ⟨.store, a, p⟩ :: l2Stream upd (if upd then (c.access a).level else c) rs := rfl

theorem l2Stream_load_hit {c : CacheLevel} {a : Addr} (h : (c.access a).outcome = .hit) (upd : Bool) (p : Addr)
    (rs : List Request) : l2Stream upd c (⟨.load, a, p⟩ :: rs) = l2Stream upd (c.access a).level rs := by
  simp only [l2Stream, h]

theorem l2Stream_load_miss {c : CacheLevel} {a : Addr} (h : (c.access a).outcome = .miss) (upd : Bool) (p : Addr)
    (rs : List Request) :
    l2Stream upd c (⟨.load, a, p⟩ :: rs) = ⟨.load, a, p⟩ :: l2Stream upd (c.access a).level rs := by
  simp only [l2Stream, h]

/-- What an event says besides the name of its level. -/
def AccessEvent.body (e : AccessEvent) : Status × Addr × Addr × Nat := (e.status, e.pc, e.address, e.line)

/-- Two levels, served by a sequence, beside each level served alone. -/
structure ServedAlone (upd : Bool) (rs : List Request) (c d c' d' : CacheLevel) : Prop where
  both : (serve upd (.two c d) rs).caches = .two c' d'
  l1 : (serve upd (.one c) rs).caches = .one c'
  l2 : (serve upd (.one d) (l2Stream upd c rs)).caches = .one d'
  l1Events : (serve upd (.two c d) rs).events.filter (AccessEvent.atLevel .L1) = (serve upd (.one c) rs).events
  l2Events : ((serve upd (.two c d) rs).events.filter (AccessEvent.atLevel .L2)).map AccessEvent.body =
    (serve upd (.one d) (l2Stream upd c rs)).events.map AccessEvent.body

/-- By induction on the sequence: a load that hits in L1, a load that misses there, a store. -/
theorem exists_servedAlone (upd : Bool) (rs : List Request) (c d : CacheLevel) :
    ∃ c' d', ServedAlone upd rs c d c' d' := by
  induction rs generalizing c d with
  | nil => exact ⟨c, d, { both := rfl, l1 := rfl, l2 := rfl, l1Events := rfl, l2Events := rfl }⟩
  | cons r rs ih =>
    obtain ⟨kind, a, p⟩ := r
    cases kind with
    | load =>
      cases hverdict : (c.access a).outcome with
      | hit =>
        obtain ⟨c', d', h⟩ := ih (c.access a).level d
        refine ⟨c', d', ?_⟩
        constructor <;>
          simp [-CacheLevel.access_outcome, serve, cacheAccess_load_two_hit hverdict, cacheAccess_load_one,
            l2Stream_load_hit hverdict, hverdict, Verdict.status, AccessEvent.atLevel, h.both,
            h.l1, h.l2, h.l1Events, h.l2Events]
      | miss =>
        obtain ⟨c', d', h⟩ := ih (c.access a).level (d.access a).level
        refine ⟨c', d', ?_⟩
        constructor <;>
          simp [-CacheLevel.access_outcome, serve, cacheAccess_load_two_miss hverdict, cacheAccess_load_one,
            l2Stream_load_miss hverdict, hverdict, Verdict.status, AccessEvent.atLevel, AccessEvent.body,
            h.both, h.l1, h.l2, h.l1Events, h.l2Events]
    | store =>
      obtain ⟨c', d', h⟩ := ih (if upd then (c.access a).level else c) (if upd then (d.access a).level else d)
      refine ⟨c', d', ?_⟩
      constructor <;>
        simp [serve, cacheAccess_store_two, cacheAccess_store_one, l2Stream_store, AccessEvent.atLevel,
          AccessEvent.body, h.both, h.l1, h.l2, h.l1Events, h.l2Events]

/-- Settles O19: each conjunct is a field of `ServedAlone`. -/
theorem levelsAreIndependent : Obligations.LevelsAreIndependent := by
  unfold Obligations.LevelsAreIndependent
  intro upd rs c d
  obtain ⟨c', d', h⟩ := exists_servedAlone upd rs c d
  exact ⟨c', d', h.both, h.l1, h.l2, h.l1Events, h.l2Events⟩

/-! The store (41_cache_hierarchy.md section 3). -/

/-- Settles O18: the request of `sw` is the store request of the effective address, by cases on the configured levels. -/
theorem storeMarksEveryLevel : Obligations.StoreMarksEveryLevel := by
  unfold Obligations.StoreMarksEveryLevel
  intro s rB rA imm
  refine ⟨_, exec_sw s rB rA imm, fun c hc => ?one, fun c d hc => ?two, fun hc => ?zero⟩ <;>
    rw [State.trace_advance, State.trace_memWrite, State.trace_request, State.caches_advance, State.caches_memWrite,
      State.caches_request, hc]
  case one =>
    rw [cacheAccess_store_one, CacheLevel.access_line]
    exact ⟨rfl, fun h => by rw [h]; rfl, fun h => by rw [h]; rfl⟩
  case two =>
    rw [cacheAccess_store_two, CacheLevel.access_line, CacheLevel.access_line]
    exact ⟨rfl, fun h => by rw [h]; rfl, fun h => by rw [h]; rfl⟩
  case zero =>
    rw [cacheAccess_zero]
    exact ⟨rfl, List.append_nil s.trace⟩

end Sys2Proof.Machine
end

