-- ==== Sys2Proof/Proofs/StepCache.lean ====
section
/-! PROOFS. A step as the caches and the trace see it (41_cache_hierarchy.md R91 to R95): one request, if the instruction
is a `lw` or `sw`, and nothing otherwise; from this what a step appends to the trace and what it keeps of every level. -/

namespace Sys2Proof.Machine

/-! What a step can do. -/

/-- The inversion of `step` by the shape of the next state (45_control_transfer.md R137). -/
theorem step_effect {s t : State} (h : step s = .next t) :
    s.Running ∧ ((∃ i, s.fetchDecode = .legal i ∧ Effect i s t) ∨
      (∃ w, s.fetchDecode = .illegal w ∧ t = s.raiseDecodeError)) := by
  obtain ⟨hrun, ⟨i, hi, hexec⟩ | hillegal⟩ := step_cases h
  · exact ⟨hrun, .inl ⟨i, hi, effect_of_exec hexec⟩⟩
  · exact ⟨hrun, .inr hillegal⟩

theorem State.current_of_running {s : State} (h : s.Running) : s.current = s.fetchDecode.toOption := by
  rw [State.current, State.stopped_eq_none.2 h]

/-- A step's effect on caches and trace: that of the one request a `lw` or `sw` makes, or none. -/
inductive CacheEffect (s t : State) : Prop where
  | request (i : Instr) (k : AccessKind) (a : Addr) (hi : s.current = some i) (hload : i.isLoad = true ↔ k = .load)
      (hstore : i.isStore = true ↔ k = .store)
      (hcaches : t.caches = (cacheAccess s.params.storeUpdatesCacheState s.caches ⟨k, a, s.pc⟩).caches)
      (htrace : t.trace = s.trace ++ (cacheAccess s.params.storeUpdatesCacheState s.caches ⟨k, a, s.pc⟩).events)
  | quiet (hi : ∀ i, s.current = some i → i.isLoad = false ∧ i.isStore = false) (hcaches : t.caches = s.caches)
      (htrace : t.trace = s.trace)

theorem Instr.quiet_of_isTransfer {i : Instr} (h : i.isTransfer = true) : i.isLoad = false ∧ i.isStore = false := by
  cases i <;> simp_all [Instr.isTransfer, Instr.isLoad, Instr.isStore]

theorem Effect.cacheEffect {i : Instr} {s t : State} (hcur : s.current = some i) (h : Effect i s t) :
    CacheEffect s t := by
  have hquiet (hi : i.isLoad = false ∧ i.isStore = false) (j : Instr) (hj : s.current = some j) :
      j.isLoad = false ∧ j.isStore = false := by
    obtain rfl : i = j := Option.some_inj.1 (hcur.symm.trans hj)
    exact hi
  cases h with
  | write r v hd hp hl hs e => subst e; exact .quiet (hquiet ⟨hl, hs⟩) (by simp) (by simp)
  | load rB rA imm hi e =>
    subst hi e
    exact .request _ .load (s.ea rA imm) hcur (by simp [Instr.isLoad]) (by simp [Instr.isStore]) (by simp)
      (by simp)
  | store rB rA imm hi e =>
    subst hi e
    exact .request _ .store (s.ea rA imm) hcur (by simp [Instr.isLoad]) (by simp [Instr.isStore]) (by simp)
      (by simp)
  | transfer p hi hd hj e => subst e; exact .quiet (hquiet (Instr.quiet_of_isTransfer hi)) (by simp) (by simp)
  | halt hi e => subst hi e; exact .quiet (hquiet ⟨rfl, rfl⟩) (by simp) (by simp)
  | link k hi e => subst hi e; exact .quiet (hquiet ⟨rfl, rfl⟩) (by simp) (by simp)

theorem step_cacheEffect {s t : State} (h : step s = .next t) : CacheEffect s t := by
  obtain ⟨hrun, ⟨i, hi, heffect⟩ | ⟨w, hw, rfl⟩⟩ := step_effect h
  · exact heffect.cacheEffect (by rw [State.current_of_running hrun, hi]; rfl)
  · refine .quiet (fun i hi => ?_) rfl rfl
    rw [State.current_of_running hrun, hw] at hi
    cases hi

/-! What one request can do, as the six cases of 41_cache_hierarchy.md R92 to R95: a claim about `cacheAccess` has
these. -/

theorem cacheAccess_by_case {upd : Bool} {a p : Addr} {P : Levels CacheLevel → AccessKind → CacheResult → Prop}
    (zero : ∀ k, P .zero k { caches := .zero, events := [] })
    (loadOne : ∀ c, P (.one c) .load
      { caches := .one (c.access a).level
        events := [⟨.L1, (c.access a).outcome.status, p, a, c.cfg.lineUsed a⟩] })
    (loadHit : ∀ c d, P (.two c d) .load
      { caches := .two (c.access a).level d, events := [⟨.L1, .HIT, p, a, c.cfg.lineUsed a⟩] })
    (loadMiss : ∀ c d, P (.two c d) .load
      { caches := .two (c.access a).level (d.access a).level
        events := [⟨.L1, .MISS, p, a, c.cfg.lineUsed a⟩,
          ⟨.L2, (d.access a).outcome.status, p, a, d.cfg.lineUsed a⟩] })
    (storeOne : ∀ c, P (.one c) .store
      { caches := .one (if upd then (c.access a).level else c)
        events := [⟨.L1, .STORE, p, a, c.cfg.lineUsed a⟩] })
    (storeTwo : ∀ c d, P (.two c d) .store
      { caches := .two (if upd then (c.access a).level else c) (if upd then (d.access a).level else d)
        events := [⟨.L1, .STORE, p, a, c.cfg.lineUsed a⟩, ⟨.L2, .STORE, p, a, d.cfg.lineUsed a⟩] })
    (cs : Levels CacheLevel) (k : AccessKind) : P cs k (cacheAccess upd cs ⟨k, a, p⟩) := by
  cases cs with
  | zero => rw [cacheAccess_zero]; exact zero k
  | one c =>
    cases k with
    | load => exact loadOne c
    | store => exact storeOne c
  | two c d =>
    cases k with
    | load =>
      cases h : (c.access a).outcome with
      | hit => rw [cacheAccess_load_two_hit h]; exact loadHit c d
      | miss => rw [cacheAccess_load_two_miss h]; exact loadMiss c d
    | store => exact storeTwo c d

/-! What a step appends to the trace (10_state.md section 7). -/

@[simp] theorem Verdict.status_ne_store (v : Verdict) : v.status ≠ .STORE := by cases v <;> decide

/-- A request emits at most one event per level, each with the requester's `pc`, and STORE exactly for a store. -/
theorem cacheAccess_events (upd : Bool) (cs : Levels CacheLevel) (k : AccessKind) (a p : Addr) :
    (cacheAccess upd cs ⟨k, a, p⟩).events.length ≤ cs.count ∧
      ∀ e ∈ (cacheAccess upd cs ⟨k, a, p⟩).events, e.pc = p ∧ (e.status = .STORE ↔ k = .store) := by
  refine cacheAccess_by_case (P := fun cs k res => res.events.length ≤ cs.count ∧
    ∀ e ∈ res.events, e.pc = p ∧ (e.status = .STORE ↔ k = .store)) ?_ ?_ ?_ ?_ ?_ ?_ cs k <;>
    simp [Levels.count]

/-- Settles O22: the step makes one request, whose events `cacheAccess_events` describes, or none. -/
theorem onlyLoadsAndStoresEmitEvents : Obligations.OnlyLoadsAndStoresEmitEvents := by
  unfold Obligations.OnlyLoadsAndStoresEmitEvents
  intro s t h
  cases step_cacheEffect h with
  | request i k a hi hload hstore hcaches htrace =>
    obtain ⟨hlength, hevent⟩ := cacheAccess_events s.params.storeUpdatesCacheState s.caches k a s.pc
    have hsame (j : Instr) (hj : s.current = some j) : i = j := Option.some_inj.1 (hi.symm.trans hj)
    refine ⟨_, htrace, hlength, fun e he => (hevent e he).1, fun j hj hs e he => ?store, fun j hj hl e he hst => ?load,
      fun hquiet => ?other⟩
    case store =>
      obtain rfl := hsame j hj
      exact (hevent e he).2.2 (hstore.1 hs)
    case load =>
      obtain rfl := hsame j hj
      exact absurd ((hload.1 hl).symm.trans ((hevent e he).2.1 hst)) (by decide)
    case other =>
      obtain ⟨hl, hs⟩ := hquiet i hi
      cases k with
      | load => exact absurd (hload.2 rfl) (by simp [hl])
      | store => exact absurd (hstore.2 rfl) (by simp [hs])
  | quiet hi hcaches htrace =>
    exact ⟨[], by simpa using htrace, Nat.zero_le _, by simp, by simp, by simp, fun _ => ⟨rfl, hcaches⟩⟩

/-! What a step keeps of the configured levels. -/

theorem Effect.params {i : Instr} {s t : State} (h : Effect i s t) : t.params = s.params := by
  cases h with
  | write r v hd hp hl hs e => rw [e, State.params_writeAdvance]
  | load rB rA imm hi e => rw [e, State.params_writeAdvance, State.params_request]
  | store rB rA imm hi e => rw [e, State.params_advance, State.params_memWrite, State.params_request]
  | transfer p hi hd hj e => rw [e, State.params_setPc]
  | halt hi e => rw [e, State.params_halt]
  | link k hi e => rw [e, State.params_setPc, State.params_setX]

theorem step_params {s t : State} (h : step s = .next t) : t.params = s.params := by
  obtain ⟨-, ⟨i, -, heffect⟩ | ⟨w, -, rfl⟩⟩ := step_effect h
  · exact heffect.params
  · rfl

theorem step_cfg {s t : State} (h : step s = .next t) : t.caches.map CacheLevel.cfg = s.caches.map CacheLevel.cfg := by
  cases step_cacheEffect h with
  | request i k a hi hload hstore hcaches htrace => rw [hcaches, cacheAccess_cfg]
  | quiet hi hcaches htrace => rw [hcaches]

/-- Settles O44: no shape of a next state writes the parameters, and no request a configuration. -/
theorem stepKeepsTheConfiguration : Obligations.StepKeepsTheConfiguration := by
  unfold Obligations.StepKeepsTheConfiguration
  exact fun s t h => ⟨step_params h, step_cfg h⟩

theorem Line.valid_access {l : Line} (h : l.valid = true) (n tag : Nat) : (l.access n tag).2.valid = true := by
  rcases Nat.lt_or_ge 1 n with hn | hn
  · rw [Line.access_of_one_lt hn]
    rcases l.accessLru_cases n tag with ⟨-, he⟩ | ⟨-, he⟩
    · rw [he]; exact h
    · rw [he]
  · rw [Line.access_of_le_one hn, Line.accessSingle_line]

/-- A valid line is valid after an access, also in a level whose line list is too short for the line used (log 8). -/
theorem CacheLevel.valid_line_access {c : CacheLevel} {i : Nat} (h : (c.line i).valid = true) (a : Addr) :
    ((c.access a).level.line i).valid = true := by
  rcases Nat.lt_or_ge (c.cfg.lineUsed a) c.lines.length with hlt | hge
  · rw [CacheLevel.line_access hlt]
    split
    next hi => exact Line.valid_access (hi ▸ h) _ _
    next => exact h
  · rw [CacheLevel.line, CacheLevel.access_lines, List.set_eq_of_length_le hge]
    exact h

/-- A request leaves each level as it was or accesses it. -/
theorem cacheAccess_at {upd : Bool} {cs : Levels CacheLevel} {k : AccessKind} {a p : Addr} {n : LevelName}
    {c d : CacheLevel} (hc : cs.at n = some c) (hd : (cacheAccess upd cs ⟨k, a, p⟩).caches.at n = some d) :
    d = c ∨ d = (c.access a).level := by
  revert hc hd
  refine cacheAccess_by_case (P := fun cs _ res => cs.at n = some c → res.caches.at n = some d →
    d = c ∨ d = (c.access a).level) ?_ ?_ ?_ ?_ ?_ ?_ cs k
  all_goals
    intros
    cases n <;> grind [Levels.at]

/-- Settles O45: a request leaves each level or accesses it, and no access clears `valid`. -/
theorem validLinesStayValid : Obligations.ValidLinesStayValid := by
  unfold Obligations.ValidLinesStayValid
  intro s t n c d i h hc hd hvalid
  cases step_cacheEffect h with
  | request j k a hj hload hstore hcaches htrace =>
    rw [hcaches] at hd
    rcases cacheAccess_at hc hd with rfl | rfl
    · exact hvalid
    · exact CacheLevel.valid_line_access hvalid a
  | quiet hj hcaches htrace =>
    rw [hcaches, hc] at hd
    cases hd
    exact hvalid

end Sys2Proof.Machine
end

