-- ==== Sys2Proof/Proofs/EventCounts.lean ====
section
/-! PROOFS. The counting laws of the event stream (41_cache_hierarchy.md R98): they hold of the events of one step and the
instruction it executes, and add up over a run. -/

namespace Sys2Proof.Machine

/-- The counting laws, of a list of events and the instructions that made them, for `levels` configured levels. -/
structure CountingLaws (levels : Nat) (is : List Instr) (es : List AccessEvent) : Prop where
  accesses : 1 ≤ levels → es.countP (AccessEvent.atLevel .L1) = is.countP (fun i => i.isLoad || i.isStore)
  stores : es.countP (AccessEvent.hasStatus .STORE) = levels * is.countP Instr.isStore
  misses : levels = 2 → es.countP (AccessEvent.loadAt .L2) = es.countP AccessEvent.missAtL1
  noL2 : levels < 2 → es.countP (AccessEvent.atLevel .L2) = 0

theorem CountingLaws.nil (levels : Nat) : CountingLaws levels [] [] where
  accesses := fun _ => rfl
  stores := rfl
  misses := fun _ => rfl
  noL2 := fun _ => rfl

theorem CountingLaws.append {levels : Nat} {is js : List Instr} {es fs : List AccessEvent}
    (h : CountingLaws levels is es) (h' : CountingLaws levels js fs) : CountingLaws levels (is ++ js) (es ++ fs) where
  accesses := fun hl => by rw [List.countP_append, List.countP_append, h.accesses hl, h'.accesses hl]
  stores := by rw [List.countP_append, List.countP_append, h.stores, h'.stores, Nat.mul_add]
  misses := fun hl => by rw [List.countP_append, List.countP_append, h.misses hl, h'.misses hl]
  noL2 := fun hl => by rw [List.countP_append, h.noL2 hl, h'.noL2 hl]

/-- An instruction that makes no request makes no events. -/
theorem CountingLaws.of_quiet {i : Instr} (hl : i.isLoad = false) (hs : i.isStore = false) (levels : Nat) :
    CountingLaws levels [i] [] where
  accesses := fun _ => by simp [hl, hs]
  stores := by simp [hs]
  misses := fun _ => rfl
  noL2 := fun _ => rfl

/-- One request, by the six cases of the hierarchy. -/
theorem CountingLaws.of_request {i : Instr} {k : AccessKind} (hload : i.isLoad = true ↔ k = .load)
    (hstore : i.isStore = true ↔ k = .store) (upd : Bool) (cs : Levels CacheLevel) (a p : Addr) :
    CountingLaws cs.count [i] (cacheAccess upd cs ⟨k, a, p⟩).events := by
  revert hload hstore
  refine cacheAccess_by_case (P := fun cs k res => (i.isLoad = true ↔ k = .load) → (i.isStore = true ↔ k = .store) →
    CountingLaws cs.count [i] res.events) ?_ ?_ ?_ ?_ ?_ ?_ cs k
  all_goals
    intros
    constructor <;> simp_all [Levels.count, AccessEvent.atLevel, AccessEvent.hasStatus, AccessEvent.loadAt,
      AccessEvent.missAtL1]

@[simp] theorem Levels.count_map {α β : Type} (f : α → β) (cs : Levels α) : (cs.map f).count = cs.count := by
  cases cs <;> rfl

/-- One step: its events and its instruction satisfy the laws, and the number of levels stays. -/
theorem step_countingLaws {s t : State} (h : step s = .next t) :
    t.caches.count = s.caches.count ∧
      ∃ es, t.trace = s.trace ++ es ∧ CountingLaws s.caches.count s.current.toList es := by
  refine ⟨by rw [← Levels.count_map CacheLevel.cfg, step_cfg h, Levels.count_map], ?_⟩
  cases step_cacheEffect h with
  | request i k a hi hload hstore hcaches htrace =>
    exact ⟨_, htrace, by rw [hi]; exact CountingLaws.of_request hload hstore _ _ a s.pc⟩
  | quiet hi hcaches htrace =>
    refine ⟨[], by rw [htrace, List.append_nil], ?_⟩
    cases hcur : s.current with
    | none => exact CountingLaws.nil _
    | some i => exact CountingLaws.of_quiet (hi i hcur).1 (hi i hcur).2 _

/-- A run of one step more is a step and a run from the state it leads to. -/
theorem run_succ_eq_next {n : Nat} {s t : State} (h : Host.Core.run Sys2Proof.core (n + 1) s = .next t) :
    ∃ u, step s = .next u ∧ Host.Core.run Sys2Proof.core n u = .next t := by
  cases hstep : step s with
  | next u => exact ⟨u, rfl, by rwa [run_succ_next hstep] at h⟩
  | fault f => rw [run_succ_fault hstep] at h; cases h
  | refused r => exact absurd hstep (step_not_refused s r)

theorem executed_succ {s u : State} (h : step s = .next u) (n : Nat) :
    executed (n + 1) s = s.current.toList ++ executed n u := by
  simp only [executed, h]

/-- The laws add up over a run. -/
theorem run_countingLaws {n : Nat} {s t : State} (h : Host.Core.run Sys2Proof.core n s = .next t) :
    ∃ es, t.trace = s.trace ++ es ∧ CountingLaws s.caches.count (executed n s) es := by
  induction n generalizing s with
  | zero =>
    cases h
    exact ⟨[], (List.append_nil _).symm, CountingLaws.nil _⟩
  | succ n ih =>
    obtain ⟨u, hstep, hrun⟩ := run_succ_eq_next h
    obtain ⟨hcount, es, hes, hlaws⟩ := step_countingLaws hstep
    obtain ⟨fs, hfs, hlaws'⟩ := ih hrun
    rw [hcount] at hlaws'
    exact ⟨es ++ fs, by rw [hfs, hes, List.append_assoc], by rw [executed_succ hstep]; exact hlaws.append hlaws'⟩

/-- Settles O20: the laws of `CountingLaws` hold of the run's events and the instructions it executed. -/
theorem eventCountsMatchExecutedInstructions : Obligations.EventCountsMatchExecutedInstructions := by
  unfold Obligations.EventCountsMatchExecutedInstructions
  intro n s t h
  obtain ⟨es, htrace, hlaws⟩ := run_countingLaws h
  exact ⟨es, htrace, hlaws.accesses, hlaws.stores, hlaws.misses, hlaws.noL2⟩

end Sys2Proof.Machine
end

