-- ==== Sys2Proof/Proofs/JumpAndLink.lean ====
section
/-! PROOFS. `jal` (45_control_transfer.md R136): the link value under both values of `linkWraps13`, the jump, the frame. -/

namespace Sys2Proof.Machine

theorem exec_jal (s : State) (k : Addr) : exec (.jal k) s = .next ((s.setX 7 s.link).setPc k) := rfl

theorem State.link_of_no_wrap {s : State} (h : s.params.linkWraps13 = false) : s.link.toNat = s.pc.toNat + 1 := by
  rw [State.link, h, if_neg Bool.false_ne_true, wordOf_add_one_toNat]

theorem State.link_of_wrap {s : State} (h : s.params.linkWraps13 = true) :
    s.link.toNat = (s.pc.toNat + 1) % 8192 := by
  have hlt := (s.pc + 1).isLt
  rw [State.link, h, if_pos rfl, wordOf, BitVec.toNat_setWidth, Nat.mod_eq_of_lt (by omega), BitVec.toNat_add]
  rfl

/-- Writing a register and setting `pc` leaves everything else. -/
theorem State.onlyRegsAndPc_setX_setPc (s : State) (r : Reg) (v : Word) (p : Addr) :
    OnlyRegsAndPc s ((s.setX r v).setPc p) := by
  obtain ⟨hmem, ⟨hcaches, htrace⟩, ⟨hhalted, hfault⟩, hparams⟩ := (s.setX r v).onlyRegsAndPc_setPc p
  exact ⟨fun b => (hmem b).trans (s.memRead_setX r v b), ⟨hcaches.trans (s.caches_setX r v),
    htrace.trans (s.trace_setX r v)⟩, ⟨hhalted.trans (s.halted_setX r v), hfault.trans (s.fault_setX r v)⟩,
    hparams.trans (s.params_setX r v)⟩

/-- Settles O36: the link value is read before the jump, and writing `x[7]` and `pc` leaves everything else. -/
theorem jalLinksAndJumps : Obligations.JalLinksAndJumps := by
  unfold Obligations.JalLinksAndJumps
  intro s imm13
  have hlink : ((s.setX 7 s.link).setPc imm13).x 7 = s.link := by
    rw [State.x_setPc, State.x_setX, if_pos (by decide)]
  refine ⟨fun f => decode_packJ_jal f imm13, _, exec_jal s imm13, rfl, fun h => ?noWrap, fun h => ?wrap,
    fun q hq => ?others, s.onlyRegsAndPc_setX_setPc 7 s.link imm13⟩
  case noWrap => rw [hlink, State.link_of_no_wrap h]
  case wrap => rw [hlink, State.link_of_wrap h]
  case others => rw [State.x_setPc, State.x_setX_ne s hq]

end Sys2Proof.Machine
end

