-- ==== Sys2Proof/Proofs/CacheTransparency.lean ====
section
/-! PROOFS. The cache is transparent (20_memory.md section 4, 41_cache_hierarchy.md R99): every operation of the state
takes two states alike in `SameCore` to two such states, so every instruction, every step and every run does. -/

namespace Sys2Proof.Machine

namespace SameCore

variable {s t : State} (h : SameCore s t)
include h

/-! What is read of the state. -/

theorem x (r : Reg) : t.x r = s.x r := State.x_congr h.regs r

theorem memRead (a : Addr) : t.memRead a = s.memRead a := State.memRead_congr h.mem a

theorem ea (rA : Reg) (imm : Word) : t.ea rA imm = s.ea rA imm := by rw [State.ea, State.ea, h.x]

theorem branchTarget (imm : Word) : t.branchTarget imm = s.branchTarget imm := by
  rw [State.branchTarget, State.branchTarget, h.pc]

theorem linkValue : t.link = s.link := by rw [State.link, State.link, h.link, h.pc]

theorem stopped : t.stopped = s.stopped := by rw [State.stopped, State.stopped, h.halted, h.fault]

theorem fetchDecode : t.fetchDecode = s.fetchDecode := by
  rw [State.fetchDecode, State.fetchDecode, h.func, h.pc, h.memRead]

/-! What is written to the state. -/

theorem setPc (p : Addr) : SameCore (s.setPc p) (t.setPc p) where
  pc := rfl
  regs := h.regs
  mem := h.mem
  halted := h.halted
  fault := h.fault
  func := h.func
  link := h.link

theorem advance : SameCore s.advance t.advance := by
  rw [State.advance, State.advance, h.pc]
  exact h.setPc _

theorem setX (r : Reg) (v : Word) : SameCore (s.setX r v) (t.setX r v) := by
  unfold State.setX
  split
  · exact h
  · exact { h with regs := by rw [h.regs] }

theorem writeAdvance (r : Reg) (v : Word) : SameCore (s.writeAdvance r v) (t.writeAdvance r v) := (h.setX r v).advance

theorem memWrite (a : Addr) (v : Word) : SameCore (s.memWrite a v) (t.memWrite a v) where
  pc := h.pc
  regs := h.regs
  mem := by rw [State.mem_memWrite, State.mem_memWrite, h.mem]
  halted := h.halted
  fault := h.fault
  func := h.func
  link := h.link

/-- The requests differ in what they do to caches and trace, and in nothing else. -/
theorem request (k : AccessKind) (a : Addr) : SameCore (s.request k a) (t.request k a) where
  pc := h.pc
  regs := h.regs
  mem := h.mem
  halted := h.halted
  fault := h.fault
  func := h.func
  link := h.link

theorem halt : SameCore s.halt t.halt := { h with halted := rfl }

theorem raiseDecodeError : SameCore s.raiseDecodeError t.raiseDecodeError := { h with fault := rfl }

/-! Instruction and step. -/

theorem exec_rel (i : Instr) : RelOutcome SameCore (exec i s) (exec i t) := by
  cases i with
  | add rD rA rB => rw [exec_add, exec_add, h.x, h.x]; exact h.writeAdvance ..
  | sub rD rA rB => rw [exec_sub, exec_sub, h.x, h.x]; exact h.writeAdvance ..
  | or rD rA rB => rw [exec_or, exec_or, h.x, h.x]; exact h.writeAdvance ..
  | and rD rA rB => rw [exec_and, exec_and, h.x, h.x]; exact h.writeAdvance ..
  | slt rD rA rB => rw [exec_slt, exec_slt, h.x, h.x]; exact h.writeAdvance ..
  | addi rB rA imm => rw [exec_addi, exec_addi, h.x]; exact h.writeAdvance ..
  | slti rB rA imm => rw [exec_slti, exec_slti, h.x]; exact h.writeAdvance ..
  | lw rB rA imm => rw [exec_lw, exec_lw, h.ea, h.memRead]; exact (h.request ..).writeAdvance ..
  | sw rB rA imm => rw [exec_sw, exec_sw, h.ea, h.x]; exact ((h.request ..).memWrite ..).advance
  | jr rA => rw [exec_jr, exec_jr, h.x]; exact h.setPc _
  | jal k => rw [exec_jal, exec_jal, h.linkValue]; exact (h.setX ..).setPc _
  | jeq rA rB imm =>
    by_cases heq : s.x rA = s.x rB
    · rw [exec_jeq_taken heq, exec_jeq_taken (by rwa [h.x, h.x]), h.branchTarget]; exact h.setPc _
    · rw [exec_jeq_not_taken heq, exec_jeq_not_taken (by rwa [h.x, h.x]), h.pc]; exact h.setPc _
  | j k =>
    by_cases hself : k = s.pc
    · rw [hself, exec_j_self, ← h.pc, exec_j_self]; exact h.halt
    · rw [exec_j_other hself, exec_j_other (by rwa [h.pc])]; exact h.setPc _

theorem step_rel : RelOutcome SameCore (step s) (step t) := by
  rw [step, step, h.stopped, h.fetchDecode]
  split
  · exact rfl
  · split
    · exact h.exec_rel _
    · exact h.raiseDecodeError

end SameCore

theorem SameCore.run_rel {s t : State} (h : SameCore s t) (n : Nat) :
    RelOutcome SameCore (Host.Core.run Sys2Proof.core n s) (Host.Core.run Sys2Proof.core n t) := by
  induction n generalizing s t with
  | zero => exact h
  | succ n ih =>
    have hrel := h.step_rel
    cases hs : step s with
    | next s' =>
      cases ht : step t with
      | next t' =>
        rw [hs, ht] at hrel
        rw [run_succ_next hs, run_succ_next ht]
        exact ih hrel
      | fault g => rw [hs, ht] at hrel; exact hrel.elim
      | refused r => exact absurd ht (step_not_refused t r)
    | fault f =>
      cases ht : step t with
      | next t' => rw [hs, ht] at hrel; exact hrel.elim
      | fault g =>
        rw [hs, ht] at hrel
        rw [run_succ_fault hs, run_succ_fault ht]
        exact hrel
      | refused r => exact absurd ht (step_not_refused t r)
    | refused r => exact absurd hs (step_not_refused s r)

/-- Settles O21, by induction on the number of steps. -/
theorem cacheNeverChangesTheProgram : Obligations.CacheNeverChangesTheProgram := by
  unfold Obligations.CacheNeverChangesTheProgram
  exact fun n s t h => h.run_rel n

end Sys2Proof.Machine
end

