-- ==== Sys2Proof/Proofs/StepInvariant.lean ====
section
/-! PROOFS. The invariant of a run (40_cache_line_store.md section 6, 10_state.md, 45_control_transfer.md R138): what an
instruction keeps of each field, and from these that a step keeps them all. -/

namespace Sys2Proof.Machine

theorem Effect.fault {i : Instr} {s t : State} (h : Effect i s t) : t.fault = s.fault := by
  cases h with
  | write r v hd hp hl hs e => rw [e, State.fault_writeAdvance]
  | load rB rA imm hi e => rw [e, State.fault_writeAdvance, State.fault_request]
  | store rB rA imm hi e => rw [e, State.fault_advance, State.fault_memWrite, State.fault_request]
  | transfer p hi hd hj e => rw [e, State.fault_setPc]
  | halt hi e => rw [e, State.fault_halt]
  | link k hi e => rw [e, State.fault_setPc, State.fault_setX]

theorem Effect.regs_zero {i : Instr} {s t : State} (h : Effect i s t) : t.regs[0] = s.regs[0] := by
  cases h with
  | write r v hd hp hl hs e => rw [e, State.regs_writeAdvance, State.regs_zero_setX]
  | load rB rA imm hi e => rw [e, State.regs_writeAdvance, State.regs_zero_setX, State.regs_request]
  | store rB rA imm hi e => rw [e, State.regs_advance, State.regs_memWrite, State.regs_request]
  | transfer p hi hd hj e => rw [e, State.regs_setPc]
  | halt hi e => rw [e, State.regs_halt]
  | link k hi e => rw [e, State.regs_setPc, State.regs_zero_setX]

/-- A step keeps every level in order, and every event of the trace, old or new, names one of its lines. -/
theorem CacheEffect.keeps_caches {s t : State} (h : CacheEffect s t) (hc : ∀ c ∈ s.caches.toList, c.Ok)
    (he : ∀ e ∈ s.trace, EventOk s.caches e) :
    (∀ c ∈ t.caches.toList, c.Ok) ∧ ∀ e ∈ t.trace, EventOk t.caches e := by
  cases h with
  | request i k a hi hload hstore hcaches htrace =>
    rw [hcaches, htrace]
    refine ⟨cacheAccess_ok hc _ _, fun e hmem => eventOk_of_cfg (cacheAccess_cfg ..) ?_⟩
    rcases List.mem_append.1 hmem with hold | hnew
    · exact he e hold
    · exact cacheAccess_events_ok hc _ _ e hnew
  | quiet hi hcaches htrace =>
    rw [hcaches, htrace]
    exact ⟨hc, he⟩

/-- Settles O48: caches and trace by the step's one request, the other fields by the shape of the next state. -/
theorem stepKeepsTheInvariant : Obligations.StepKeepsTheInvariant := by
  unfold Obligations.StepKeepsTheInvariant
  intro s t hinv h
  obtain ⟨hcaches, hevents⟩ := (step_cacheEffect h).keeps_caches hinv.caches hinv.events
  have hfunc : t.params.func.distinct = true := by rw [step_params h]; exact hinv.func
  obtain ⟨⟨hhalted, hfault⟩, ⟨i, -, heffect⟩ | ⟨w, -, rfl⟩⟩ := step_effect h
  · exact { mem := heffect.mem_wf hinv.mem, x0 := heffect.regs_zero.trans hinv.x0, caches := hcaches, events := hevents,
            ends := fun _ => heffect.fault.trans hfault, func := hfunc }
  · exact { mem := hinv.mem, x0 := hinv.x0, caches := hcaches, events := hevents,
            ends := fun h => absurd (hhalted.symm.trans h) (by decide), func := hfunc }

end Sys2Proof.Machine
end

