-- ==== Sys2Proof/Proofs/StepFrames.lean ====
section
/-! PROOFS. The step's statements on fetch, faults, the halt, and what each step changes of registers, memory and `pc`
(45_control_transfer.md R134 to R137, 60_exceptions.md section 1, 10_state.md sections 2 to 4). -/

namespace Sys2Proof.Machine

/-! Fetch, decode and the two ways of ending. -/

theorem step_of_legal {s : State} (hrun : s.Running) {i : Instr} (h : s.fetchDecode = .legal i) : step s = exec i s := by
  rw [step_running hrun, h]

theorem step_of_illegal {s : State} (hrun : s.Running) {w : Word} (h : s.fetchDecode = .illegal w) :
    step s = .next s.raiseDecodeError := by
  rw [step_running hrun, h]

theorem step_running_of_next {s t : State} (h : step s = .next t) : s.Running := (step_cases h).1

/-- Settles O37: a running machine dispatches on its fetch, and a stopped one has no next state. -/
theorem stepRunsTheDecodedInstruction : Obligations.StepRunsTheDecodedInstruction := by
  unfold Obligations.StepRunsTheDecodedInstruction
  intro s
  refine ⟨fun i hhalted hfault hi => step_of_legal ⟨hhalted, hfault⟩ hi,
    fun w hhalted hfault hw => step_of_illegal ⟨hhalted, hfault⟩ hw, fun hstopped t h => ?_, fun t _ => t.x_zero⟩
  obtain ⟨hhalted, hfault⟩ := step_running_of_next h
  rcases hstopped with hstopped | hstopped
  · exact absurd (hhalted.symm.trans hstopped) (by decide)
  · exact hstopped hfault

/-- An illegal word is reported as itself (30_encoding.md R58). -/
theorem decode_illegal {f : FuncCodes} {w v : Word} (h : decode f w = .illegal v) : v = w := by
  revert h
  refine decode_by_opcode (P := fun d => d = .illegal v → v = w) (fun _ h => ?_) ?_ ?_ ?_ ?_ ?_ ?_ ?_
  · unfold decodeR at h
    split_ifs at h
    cases h
    rfl
  all_goals simp

/-- Settles O38: the step raises the exception and keeps `pc` and the word, so the report reads them; the faulted machine is
stopped. -/
theorem decodeErrorIsPreciseAndTerminal : Obligations.DecodeErrorIsPreciseAndTerminal := by
  unfold Obligations.DecodeErrorIsPreciseAndTerminal
  intro s w hrun hw
  have hreport : s.raiseDecodeError.decodeErrorReport = some (s.pc, w) := by
    rw [decode_illegal hw]
    rfl
  have hterminal : step s.raiseDecodeError = .fault .stoppedDecodeError := by
    rw [step, State.stopped_eq, State.halted_raiseDecodeError, hrun.1]
    rfl
  exact ⟨_, step_of_illegal hrun hw, rfl, hrun.1, rfl, s.x_raiseDecodeError, rfl, ⟨rfl, rfl⟩, rfl, hreport, hterminal⟩

theorem exists_step_of_running {s : State} (h : s.Running) : ∃ t, step s = .next t := by
  cases hd : s.fetchDecode with
  | legal i =>
    obtain ⟨t, ht, -⟩ := exec_effect i s
    exact ⟨t, by rw [step_of_legal h hd, ht]⟩
  | illegal w => exact ⟨_, step_of_illegal h hd⟩

/-- Settles O39: every instruction completes with `fault` as it was, so only the exception of an illegal word sets it. -/
theorem nothingElseFaults : Obligations.NothingElseFaults := by
  unfold Obligations.NothingElseFaults
  refine ⟨fun s => ⟨exists_step_of_running, fun ⟨t, h⟩ => step_running_of_next h⟩, fun i s => ?completes,
    fun s t h => ?faults⟩
  case completes =>
    obtain ⟨t, ht, heffect⟩ := exec_effect i s
    exact ⟨t, ht, heffect.fault⟩
  case faults =>
    obtain ⟨⟨-, hfault⟩, ⟨i, hi, heffect⟩ | ⟨w, hw, rfl⟩⟩ := step_effect h
    · simp [heffect.fault, hfault, hi]
    · simp [hw]

theorem Effect.halted_iff {i : Instr} {s t : State} (h : Effect i s t) (hs : s.halted = false) :
    t.halted = true ↔ i = .j s.pc := by
  cases h with
  | write r v hd hp hl hst e =>
    subst e
    simp only [State.halted_writeAdvance, hs, Bool.false_eq_true, false_iff]
    rintro rfl
    cases hd
  | load rB rA imm hi e => subst e hi; simp [hs]
  | store rB rA imm hi e => subst e hi; simp [hs]
  | transfer p hi hd hj e => subst e; simpa [hs] using fun h => hj s.pc h rfl
  | halt hi e => subst e hi; simp
  | link k hi e => subst e hi; simp [hs]

/-- Settles O40: of the shapes a next state can have, only the halt sets `halted`. -/
theorem onlyASelfJumpHalts : Obligations.OnlyASelfJumpHalts := by
  unfold Obligations.OnlyASelfJumpHalts
  intro s t h
  obtain ⟨⟨hhalted, -⟩, ⟨i, hi, heffect⟩ | ⟨w, hw, rfl⟩⟩ := step_effect h
  · rw [heffect.halted_iff hhalted, hi, Decoded.legal.injEq]
  · simp [hw, hhalted]

/-! Registers. -/

theorem Effect.dest_of_x_ne {i : Instr} {s t : State} (h : Effect i s t) {q : Reg} (hq : t.x q ≠ s.x q) :
    i.dest = some q := by
  cases h with
  | write r v hd hp hl hs e =>
    obtain rfl : q = r := by_contra fun hne => hq (by rw [e, State.x_writeAdvance_other s (.inl hne)])
    exact hd
  | load rB rA imm hi e =>
    obtain rfl : q = rB := by_contra fun hne => hq (by rw [e, State.x_writeAdvance_other _ (.inl hne), State.x_request])
    rw [hi]
    rfl
  | store rB rA imm hi e => exact absurd (by rw [e, State.x_advance, State.x_memWrite, State.x_request]) hq
  | transfer p hi hd hj e => exact absurd (by rw [e, State.x_setPc]) hq
  | halt hi e => exact absurd (by rw [e, State.x_halt]) hq
  | link k hi e =>
    obtain rfl : q = 7 := by_contra fun hne => hq (by rw [e, State.x_setPc, State.x_setX_ne s hne])
    rw [hi]
    rfl

/-- Settles O41: of the shapes a next state can have, each writes at most the destination register. -/
theorem onlyTheDestinationRegisterChanges : Obligations.OnlyTheDestinationRegisterChanges := by
  unfold Obligations.OnlyTheDestinationRegisterChanges
  intro s t h q hq
  refine ⟨fun hzero => hq (by rw [hzero, State.x_zero, State.x_zero]), ?_⟩
  obtain ⟨-, ⟨i, hi, heffect⟩ | ⟨w, -, rfl⟩⟩ := step_effect h
  · exact ⟨i, hi, heffect.dest_of_x_ne hq⟩
  · exact absurd (s.x_raiseDecodeError q) hq

/-! Memory. -/

theorem Effect.store_of_memRead_ne {i : Instr} {s t : State} (h : Effect i s t) (hwf : s.mem.wf = true) {b : Addr}
    (hb : t.memRead b ≠ s.memRead b) :
    ∃ rB rA imm, i = .sw rB rA imm ∧ b = s.ea rA imm ∧ t.memRead b = s.x rB := by
  cases h with
  | write r v hd hp hl hs e => exact absurd (by rw [e, State.memRead_writeAdvance]) hb
  | load rB rA imm hi e => exact absurd (by rw [e, State.memRead_writeAdvance, State.memRead_request]) hb
  | store rB rA imm hi e =>
    subst e
    rw [State.memRead_request_memWrite_advance hwf] at hb ⊢
    have heq : b = s.ea rA imm := by_contra fun hne => hb (if_neg hne)
    exact ⟨rB, rA, imm, hi, heq, if_pos heq⟩
  | transfer p hi hd hj e => exact absurd (by rw [e, State.memRead_setPc]) hb
  | halt hi e => exact absurd (by rw [e, State.memRead_halt]) hb
  | link k hi e => exact absurd (by rw [e, State.memRead_setPc, State.memRead_setX]) hb

/-- Settles O42: of the shapes a next state can have, only the store writes memory, at its effective address. -/
theorem onlyAStoreChangesMemory : Obligations.OnlyAStoreChangesMemory := by
  unfold Obligations.OnlyAStoreChangesMemory
  intro s t hwf h b hb
  obtain ⟨-, ⟨i, hi, heffect⟩ | ⟨w, -, rfl⟩⟩ := step_effect h
  · obtain ⟨rB, rA, imm, rfl, haddr, hword⟩ := heffect.store_of_memRead_ne hwf hb
    exact ⟨rB, rA, imm, hi, haddr, hword⟩
  · exact absurd (s.memRead_raiseDecodeError b) hb

/-! `pc`. -/

theorem Effect.pc_of_not_transfer {i : Instr} {s t : State} (h : Effect i s t) (hi : i.isTransfer = false) :
    t.pc = s.pc + 1 := by
  cases h with
  | write r v hd hp hl hs e => rw [e, State.pc_writeAdvance]
  | load rB rA imm hlw e => rw [e, State.pc_writeAdvance, State.pc_request]
  | store rB rA imm hsw e => rw [e, State.pc_advance, State.pc_memWrite, State.pc_request]
  | transfer p ht hd hj e => exact absurd (ht.symm.trans hi) (by decide)
  | halt hj e => subst hj; cases hi
  | link k hj e => subst hj; cases hi

/-- Settles O43: a transfer, the halt and the exception are the only shapes that do not advance `pc`. -/
theorem pcAdvancesExceptOnTransfers : Obligations.PcAdvancesExceptOnTransfers := by
  unfold Obligations.PcAdvancesExceptOnTransfers
  intro s t h
  obtain ⟨-, ⟨i, hi, hexec⟩ | ⟨w, hw, rfl⟩⟩ := step_cases h
  · rw [hi]
    refine ⟨fun j hj hnot => ?advance, fun hstays => ?stays⟩
    case advance =>
      cases hj
      rw [(effect_of_exec hexec).pc_of_not_transfer hnot]
      exact s.pc_toNat_advance
    case stays =>
      obtain rfl : i = .j s.pc := by simpa using hstays
      rw [exec_j_self] at hexec
      cases hexec
      exact s.pc_halt
  · exact ⟨fun i hi => (by rw [hw] at hi; cases hi), fun _ => s.pc_raiseDecodeError⟩

/-! A store, and the fetch or load after it (20_memory.md section 3). -/

/-- What is read after a `sw` (44_load_store.md R121): the stored register at the effective address, all else as before. -/
theorem exists_exec_sw {s : State} (hwf : s.mem.wf = true) (rB rA : Reg) (imm : Word) :
    ∃ t, exec (.sw rB rA imm) s = .next t ∧ (∀ q, t.x q = s.x q) ∧
      (∀ b, t.memRead b = if b = s.ea rA imm then s.x rB else s.memRead b) ∧ t.pc = s.pc + 1 ∧
      SameRunState s t ∧ t.params = s.params := by
  refine ⟨_, exec_sw s rB rA imm, fun q => ?_, fun b => State.memRead_request_memWrite_advance hwf .., rfl,
    ⟨rfl, rfl⟩, rfl⟩
  rw [State.x_advance, State.x_memWrite, State.x_request]

/-- Settles O46: the fetch reads the stored register, and the machine runs on. -/
theorem storedWordIsFetchedNext : Obligations.StoredWordIsFetchedNext := by
  unfold Obligations.StoredWordIsFetchedNext
  intro s rB rA imm i hwf hrun hsw hea hi
  obtain ⟨t, hexec, -, hmem, hpc, ⟨hhalted, hfault⟩, hparams⟩ := exists_exec_sw hwf rB rA imm
  have hfetch : t.fetchDecode = .legal i := by
    rw [State.fetchDecode, hparams, hpc, hmem, if_pos hea.symm, hi]
  exact ⟨t, by rw [step_of_legal hrun hsw, hexec], hpc,
    step_of_legal ⟨hhalted.trans hrun.1, hfault.trans hrun.2⟩ hfetch⟩

/-- Settles O47: the load reads the stored register, whatever its request does. -/
theorem loadReturnsTheLatestStore : Obligations.LoadReturnsTheLatestStore := by
  unfold Obligations.LoadReturnsTheLatestStore
  intro s rB rA rC rE immS immL hwf hea
  obtain ⟨t, hexec, hx, hmem, -⟩ := exists_exec_sw hwf rB rA immS
  have hsame : t.ea rE immL = s.ea rA immS := by rw [hea, State.ea, State.ea, hx]
  refine ⟨t, _, hexec, exec_lw t rC rE immL, fun q => ?_⟩
  calc
    _ = if q = rC ∧ q ≠ 0 then t.memRead (t.ea rE immL) else (t.request .load (t.ea rE immL)).x q :=
      State.map_x_writeAdvance id ..
    _ = if q = rC ∧ q ≠ 0 then s.x rB else s.x q := by rw [hmem, if_pos hsame, State.x_request, hx]

end Sys2Proof.Machine
end

