-- ==== Sys2Proof/Proofs/AddressDecomposition.lean ====
section
/-! PROOFS. The derived line count (00_scope.md R4, R6) and the address decomposition (40_cache_line_store.md R70, R71). -/

namespace Sys2Proof

/-! The line count. -/

/-- The two cases of R4 with ways are one formula. -/
theorem LevelConfig.numLines_of_ways {c : LevelConfig} (h : 1 ≤ c.associativity) :
    c.numLines = c.size / (c.blockSize * c.associativity) := by
  rw [LevelConfig.numLines, if_neg (Nat.ne_of_gt h)]
  split
  next hone => rw [hone, Nat.mul_one]
  next => rfl

theorem LevelConfig.numLines_mul_of_legal {c : LevelConfig} (h : c.legal = true) (hways : 1 ≤ c.associativity) :
    c.numLines * c.associativity * c.blockSize = c.size := by
  simp only [LevelConfig.legal, decide_eq_true_eq] at h
  obtain ⟨-, -, hdvd⟩ := h
  rw [LevelConfig.numLines_of_ways hways, Nat.mul_assoc, Nat.mul_comm c.associativity]
  exact Nat.div_mul_cancel (hdvd hways)

/-- Settles O7: for a level with ways R4 is one quotient, exact by R6; without ways the line count is 1. -/
theorem legalLevelHasExactlyItsLines : Obligations.LegalLevelHasExactlyItsLines := by
  unfold Obligations.LegalLevelHasExactlyItsLines
  intro c hlegal
  obtain ⟨-, hlines⟩ := LevelConfig.pos_of_legal hlegal
  refine ⟨hlines, LevelConfig.numLines_full, fun hdirect => ?_, LevelConfig.numLines_mul_of_legal hlegal⟩
  rw [LevelConfig.numLines_of_ways hdirect.ge, hdirect, Nat.mul_one]

/-! The decomposition. -/

theorem LevelConfig.tagOf_mul_add_lineOf (c : LevelConfig) (a : Addr) :
    c.tagOf a * c.numLines + c.lineOf a = c.blockID a :=
  Nat.div_add_mod' ..

/-- The tag is the address by the words of all lines together. -/
theorem LevelConfig.tagOf_eq_div (c : LevelConfig) (a : Addr) :
    c.tagOf a = a.toNat / (c.blockSize * c.numLines) :=
  Nat.div_div_eq_div_mul ..

/-- Settles O8: division with remainder, by the block size and then by the line count. -/
theorem decompositionIdentifiesTheBlock : Obligations.DecompositionIdentifiesTheBlock := by
  unfold Obligations.DecompositionIdentifiesTheBlock
  intro c a b hlegal
  obtain ⟨hblock, hlines⟩ := LevelConfig.pos_of_legal hlegal
  refine ⟨Nat.div_mul_le_self .., (Nat.div_lt_iff_lt_mul hblock).1 (Nat.lt_succ_self _), Nat.mod_lt _ hlines,
    c.tagOf_mul_add_lineOf a, ?tag, ?oneBlock⟩
  case tag =>
    rw [c.tagOf_eq_div]
    exact Nat.div_le_div_right (Nat.le_of_lt_succ a.isLt)
  case oneBlock =>
    constructor
    · rintro ⟨hline, htag⟩
      rw [← c.tagOf_mul_add_lineOf a, ← c.tagOf_mul_add_lineOf b, hline, htag]
    · intro hid
      exact ⟨congrArg (· % c.numLines) hid, congrArg (· / c.numLines) hid⟩

/-- Settles O9: quotients and remainders by powers of two drop and keep low bits. -/
theorem powerOfTwoDecompositionIsBitSlicing : Obligations.PowerOfTwoDecompositionIsBitSlicing := by
  unfold Obligations.PowerOfTwoDecompositionIsBitSlicing
  intro c bw lw n a hblock hlines
  rw [LevelConfig.lineOf, LevelConfig.tagOf, LevelConfig.blockID, hblock, hlines, Nat.testBit_mod_two_pow,
    Nat.testBit_div_two_pow, Nat.testBit_div_two_pow, Nat.testBit_div_two_pow, BitVec.testBit_toNat,
    BitVec.testBit_toNat, Nat.add_comm n bw, Nat.add_comm n lw, Nat.add_comm (lw + n), Nat.add_assoc]
  exact ⟨rfl, rfl⟩

end Sys2Proof
end

