-- ==== Sys2Proof/Proofs/ResetAndBoot.lean ====
section
/-! PROOFS. Reset and the start of a run (70_reset_and_hazards.md, 80_interfaces.md R186, R187): the reset state field by
field, the lists the configuration interface accepts, the images the preload accepts, and memory after it. -/

namespace Sys2Proof

@[simp] theorem Levels.toList_zero {α : Type} : (Levels.zero : Levels α).toList = [] := rfl
@[simp] theorem Levels.toList_one {α : Type} (a : α) : (Levels.one a).toList = [a] := rfl
@[simp] theorem Levels.toList_two {α : Type} (a b : α) : (Levels.two a b).toList = [a, b] := rfl

theorem Levels.toList_map {α β : Type} (f : α → β) (c : Levels α) : (c.map f).toList = c.toList.map f := by
  cases c <;> rfl

namespace Machine

/-! Reset. -/

/-- Each level of the reset state is built from its configuration and keeps it. -/
theorem State.cfg_resetWith (p : Params) (cfg : Levels LevelConfig) :
    (State.resetWith p cfg).caches.map CacheLevel.cfg = cfg := by
  cases cfg <;> rfl

theorem State.mem_caches_resetWith {p : Params} {cfg : Levels LevelConfig} {c : CacheLevel}
    (h : c ∈ (State.resetWith p cfg).caches.toList) : ∃ l ∈ cfg.toList, CacheLevel.fresh l = c := by
  rw [State.resetWith, Levels.toList_map] at h
  exact List.mem_map.1 h

theorem State.regs_resetWith (p : Params) (cfg : Levels LevelConfig) (r : Reg) :
    (State.resetWith p cfg).regs[r] = 0 := by
  simp [State.resetWith]

/-- Settles O49: both ways of resetting give the state `State.resetWith` builds, read field by field. -/
theorem resetSetsEveryField : Obligations.ResetSetsEveryField := by
  unfold Obligations.ResetSetsEveryField
  intro p cfg s h
  obtain rfl : s = State.resetWith p cfg := by
    rcases h with h | ⟨u, h, rfl, rfl⟩
    · exact h
    · exact h
  refine ⟨rfl, fun r => ?registers, fun a => rfl, rfl, rfl, rfl, rfl, State.cfg_resetWith p cfg, fun c hc => ?levels⟩
  case registers => rw [State.x, State.regs_resetWith, ite_self]
  case levels =>
    obtain ⟨l, -, rfl⟩ := State.mem_caches_resetWith hc
    refine ⟨List.length_replicate, fun line hline => ?_⟩
    rw [List.eq_of_mem_replicate hline]
    exact ⟨rfl, rfl⟩

theorem State.inv_resetWith {p : Params} {cfg : Levels LevelConfig} (hp : p.func.distinct = true)
    (hcfg : ∀ c ∈ cfg.toList, c.legal = true) : (State.resetWith p cfg).Inv where
  mem := rfl
  x0 := State.regs_resetWith p cfg 0
  caches := fun c hc => by
    obtain ⟨l, hl, rfl⟩ := State.mem_caches_resetWith hc
    exact CacheLevel.fresh_ok (hcfg l hl)
  events := fun e he => absurd he List.not_mem_nil
  ends := fun _ => rfl
  func := hp

/-- Settles O50: a reset level is orderly when its configuration is legal, and the trace is empty. -/
theorem resetMeetsTheInvariant : Obligations.ResetMeetsTheInvariant := by
  unfold Obligations.ResetMeetsTheInvariant
  exact ⟨State.inv_resetWith (by decide) (by simp), fun p cfg hp hcfg => State.inv_resetWith hp hcfg⟩

/-! The configuration interface (80_interfaces.md R186). -/

/-- The three integers of a level. -/
def intsOf (c : LevelConfig) : List Int := [(c.size : Int), (c.associativity : Int), (c.blockSize : Int)]

theorem levelOfInts_eq_some_iff (s a b : Int) (c : LevelConfig) :
    levelOfInts s a b = some c ↔ c.legal = true ∧ [s, a, b] = intsOf c := by
  unfold levelOfInts
  constructor
  · intro h
    split at h
    next hnonneg =>
      obtain ⟨hs, ha, hb⟩ := hnonneg
      obtain ⟨hlegal, hc⟩ := Option.ite_none_right_eq_some.1 h
      cases hc
      exact ⟨hlegal, by simp [intsOf, hs, ha, hb]⟩
    next => cases h
  · rintro ⟨hlegal, h⟩
    simp only [intsOf, List.cons.injEq, and_true] at h
    obtain ⟨rfl, rfl, rfl⟩ := h
    simp [hlegal]

theorem legal_of_configure {ints : List Int} {cfg : Levels LevelConfig} (h : configure ints = .ok cfg) :
    (∀ c ∈ cfg.toList, c.legal = true) ∧ ints = cfg.toList.flatMap intsOf := by
  unfold configure at h
  split at h
  next => cases h; simp
  next s a b =>
    split at h
    next => cases h
    next c hc =>
      cases h
      obtain ⟨hlegal, hints⟩ := (levelOfInts_eq_some_iff ..).1 hc
      simp [hlegal, hints]
  next s1 a1 b1 s2 a2 b2 =>
    split at h
    next => cases h
    next => cases h
    next c1 c2 hc1 hc2 =>
      cases h
      obtain ⟨hlegal1, hints1⟩ := (levelOfInts_eq_some_iff ..).1 hc1
      obtain ⟨hlegal2, hints2⟩ := (levelOfInts_eq_some_iff ..).1 hc2
      simp [hlegal1, hlegal2, ← hints1, ← hints2]
  next => cases h

theorem configure_of_legal {cfg : Levels LevelConfig} (h : ∀ c ∈ cfg.toList, c.legal = true) :
    configure (cfg.toList.flatMap intsOf) = .ok cfg := by
  have hlevel (c : LevelConfig) (hc : c.legal = true) :
      levelOfInts c.size c.associativity c.blockSize = some c := (levelOfInts_eq_some_iff ..).2 ⟨hc, rfl⟩
  cases cfg with
  | zero => rfl
  | one c => simp [configure, intsOf, hlevel c (h c (by simp))]
  | two c d => simp [configure, intsOf, hlevel c (h c (by simp)), hlevel d (h d (by simp))]

theorem configure_wrongCount {ints : List Int} (h0 : ints.length ≠ 0) (h3 : ints.length ≠ 3) (h6 : ints.length ≠ 6) :
    configure ints = .error (.wrongCount ints.length) := by
  unfold configure
  split
  · exact absurd rfl h0
  · exact absurd rfl h3
  · exact absurd rfl h6
  · rfl

/-- Settles O51: three integers make a level exactly when they are its size, associativity and block size and it is legal. -/
theorem configureAcceptsExactlyLegalLists : Obligations.ConfigureAcceptsExactlyLegalLists := by
  unfold Obligations.ConfigureAcceptsExactlyLegalLists
  intro ints cfg
  refine ⟨⟨legal_of_configure, ?_⟩, configure_wrongCount⟩
  rintro ⟨hlegal, rfl⟩
  exact configure_of_legal hlegal

/-! The memory image (80_interfaces.md R187). -/

/-- An image is accepted exactly when its addresses rise strictly, from `least` on, and lie below 8192. -/
theorem imageProblem_eq_none_iff (least : Nat) (image : List (Nat × Word)) :
    imageProblem least image = none ↔
      image.Pairwise (fun c d => c.1 < d.1) ∧ ∀ c ∈ image, least ≤ c.1 ∧ c.1 < 8192 := by
  induction image generalizing least with
  | nil => simp [imageProblem]
  | cons c rest ih =>
    obtain ⟨a, v⟩ := c
    rw [imageProblem, List.pairwise_cons, List.forall_mem_cons]
    split
    next hbig => simp [Nat.not_lt.2 hbig]
    next hsmall =>
      split
      next hlow => simp [Nat.not_le.2 hlow]
      next hhigh =>
        rw [ih]
        constructor
        · rintro ⟨hrising, hrange⟩
          exact ⟨⟨fun c hc => (hrange c hc).1, hrising⟩, ⟨Nat.not_lt.1 hhigh, Nat.not_le.1 hsmall⟩,
            fun c hc => ⟨by have := hrange c hc; omega, (hrange c hc).2⟩⟩
        · rintro ⟨⟨hfirst, hrising⟩, -, hrange⟩
          exact ⟨hrising, fun c hc => ⟨hfirst c hc, (hrange c hc).2⟩⟩

/-- An address the image does not name keeps its word. -/
theorem read_preload_of_not_named {m : Memory} (hm : m.wf = true) {image : List (Nat × Word)}
    (hrange : ∀ c ∈ image, c.1 < 8192) {a : Nat} (ha : ∀ c ∈ image, c.1 ≠ a) :
    (preload m image).read a = m.read a := by
  induction image generalizing m with
  | nil => rfl
  | cons c rest ih =>
    obtain ⟨b, v⟩ := c
    rw [List.forall_mem_cons] at hrange ha
    rw [preload, ih (Memory.wf_write hm hrange.1 v) hrange.2 ha.2, Memory.read_write hm, if_neg (Ne.symm ha.1)]

/-- An address the image names holds its word: no later pair of a rising image names it again. -/
theorem read_preload_of_named {m : Memory} (hm : m.wf = true) {image : List (Nat × Word)}
    (hrange : ∀ c ∈ image, c.1 < 8192) (hrising : image.Pairwise fun c d => c.1 < d.1) {c : Nat × Word}
    (hc : c ∈ image) : (preload m image).read c.1 = c.2 := by
  induction image generalizing m with
  | nil => cases hc
  | cons d rest ih =>
    obtain ⟨b, v⟩ := d
    rw [List.forall_mem_cons] at hrange
    obtain ⟨hfirst, hrest⟩ := List.pairwise_cons.1 hrising
    have hwf := Memory.wf_write hm hrange.1 v
    rcases List.mem_cons.1 hc with rfl | hc
    · rw [preload, read_preload_of_not_named hwf hrange.2 fun d hd => Nat.ne_of_gt (hfirst d hd),
        Memory.read_write hm, if_pos rfl]
    · exact ih hwf hrange.2 hrest hc

/-! Boot (70_reset_and_hazards.md R167). -/

/-- The state before the first step: reset, then the preload. -/
theorem boot_eq_ok_iff {p : Params} {ints : List Int} {image : List (Nat × Word)} {r : List ConfigReport × State} :
    boot p ints image = .ok r ↔ ∃ cfg, configure ints = .ok cfg ∧ imageProblem 0 image = none ∧
      r = (configReport cfg, { State.resetWith p cfg with mem := preload [] image }) := by
  unfold boot
  cases configure ints with
  | error e => simp
  | ok cfg =>
    cases imageProblem 0 image with
    | none => simp [State.resetWith, eq_comm]
    | some e => simp

/-- Settles O53: boot answers a state exactly when configuration and image are both accepted. -/
theorem bootRefusesExactlyBadInputs : Obligations.BootRefusesExactlyBadInputs := by
  unfold Obligations.BootRefusesExactlyBadInputs
  intro p ints image
  have himage := imageProblem_eq_none_iff 0 image
  simp only [Nat.zero_le, true_and] at himage
  rw [← himage]
  constructor
  · rintro ⟨r, h⟩
    obtain ⟨cfg, hcfg, hnone, -⟩ := boot_eq_ok_iff.1 h
    exact ⟨⟨cfg, hcfg⟩, hnone⟩
  · rintro ⟨⟨cfg, hcfg⟩, hnone⟩
    exact ⟨_, boot_eq_ok_iff.2 ⟨cfg, hcfg, hnone, rfl⟩⟩

/-- Settles O52: the image is accepted, so each named address is written once, in range. -/
theorem bootLoadsTheImage : Obligations.BootLoadsTheImage := by
  unfold Obligations.BootLoadsTheImage
  intro p ints image reports s h
  obtain ⟨cfg, hcfg, hnone, hr⟩ := boot_eq_ok_iff.1 h
  obtain ⟨rfl, rfl⟩ := Prod.mk.inj hr
  obtain ⟨hrising, hbounds⟩ := (imageProblem_eq_none_iff 0 image).1 hnone
  have hrange : ∀ c ∈ image, c.1 < 8192 := fun c hc => (hbounds c hc).2
  have hempty : Memory.wf [] = true := rfl
  refine ⟨cfg, hcfg, rfl, fun c hc => ⟨hrange c hc, ?named⟩, fun a ha => ?unnamed, rfl, fun hp => ?inv⟩
  case named =>
    rw [State.memRead, BitVec.toNat_ofNat, Nat.mod_eq_of_lt (hrange c hc)]
    exact read_preload_of_named hempty hrange hrising hc
  case unnamed => exact read_preload_of_not_named hempty hrange ha
  case inv => exact { State.inv_resetWith hp (legal_of_configure hcfg).1 with mem := preload_wf hempty hrange }

end Machine

end Sys2Proof
end
